-- ==== Sys2Proof/Word.lean ====
section
/-! DEFINITION. The word types of the engine (rules R7, R10, R11): bytes, 16-bit words, 12-bit addresses, nibbles and the 32-bit generator state. -/

namespace Sys2Proof

/-- u8: a general register, a timer, a byte of memory, the immediate kk (rules R7, R11). -/
abbrev Byte := BitVec 8

/-- u16: the instruction word, pc, I and a stack entry (rules R7, R11). -/
abbrev Word := BitVec 16

/-- The 12-bit address field nnn (rule R73). -/
abbrev Addr := BitVec 12

/-- A 4-bit field of an instruction word (rule R10). -/
abbrev Nibble := BitVec 4

/-- u32: the state of the pseudo-random byte generator (rule R31). -/
abbrev RngState := BitVec 32

end Sys2Proof
end

