-- ==== Sys2Proof/Syntax.lean ====
section
/-! DEFINITION. The instructions as syntax: one constructor for each of the 34 rows of spec/opcode_table.json (rule R80), with the operand fields of rule R73. -/

namespace Sys2Proof

/-- A general register number, 0 to 15: "always in 0–15 by construction (4-bit nibble)" (rule R21). -/
abbrev Reg := Fin 16

/-- The flag register VF (rule R22). -/
abbrev VF : Reg := 15

/-- The 34 instructions, in the order of rule R80. A register field is a `Reg`, kk a byte, nnn a 12-bit address, n a
nibble. SHR and SHL carry the field y their encoding holds, though nothing reads it (rules R74, R87). -/
inductive Instr where
  | cls                               -- 00E0
  | ret                               -- 00EE
  | jp (nnn : Addr)                   -- 1nnn
  | call (nnn : Addr)                 -- 2nnn
  | seImm (x : Reg) (kk : Byte)       -- 3xkk
  | sneImm (x : Reg) (kk : Byte)      -- 4xkk
  | seReg (x y : Reg)                 -- 5xy0
  | ldImm (x : Reg) (kk : Byte)       -- 6xkk
  | addImm (x : Reg) (kk : Byte)      -- 7xkk
  | ldReg (x y : Reg)                 -- 8xy0
  | orReg (x y : Reg)                 -- 8xy1
  | andReg (x y : Reg)                -- 8xy2
  | xorReg (x y : Reg)                -- 8xy3
  | addReg (x y : Reg)                -- 8xy4
  | subReg (x y : Reg)                -- 8xy5
  | shr (x y : Reg)                   -- 8xy6
  | subn (x y : Reg)                  -- 8xy7
  | shl (x y : Reg)                   -- 8xyE
  | sneReg (x y : Reg)                -- 9xy0
  | ldI (nnn : Addr)                  -- Annn
  | jpV0 (nnn : Addr)                 -- Bnnn
  | rnd (x : Reg) (kk : Byte)         -- Cxkk
  | drw (x y : Reg) (n : Nibble)      -- Dxyn
  | skp (x : Reg)                     -- Ex9E
  | sknp (x : Reg)                    -- ExA1
  | ldVxDT (x : Reg)                  -- Fx07
  | ldVxK (x : Reg)                   -- Fx0A
  | ldDTVx (x : Reg)                  -- Fx15
  | ldSTVx (x : Reg)                  -- Fx18
  | addI (x : Reg)                    -- Fx1E
  | ldF (x : Reg)                     -- Fx29
  | ldB (x : Reg)                     -- Fx33
  | storeRegs (x : Reg)               -- Fx55
  | loadRegs (x : Reg)                -- Fx65
  deriving DecidableEq, Repr

end Sys2Proof
end

