-- ==== Sys2Proof/WellFormed.lean ====
section
/-! DEFINITION. Well-formedness, on both sides of the encoding: the operand fields of an instruction fit the widths of rule R71, and a word is legal when a row of the opcode table matches it (rules R80, R82). -/

namespace Sys2Proof

/-- One operand field: how many bits the encoding gives it (rule R71) and the value to put there. -/
structure Field where
  width : Nat
  value : Nat
  deriving DecidableEq, Repr

/-- The check: the value fits the field. -/
def Field.fits (f : Field) : Bool := decide (f.value < 2 ^ f.width)

/-- A register field is 4 bits wide (rule R73). -/
def Field.reg (r : Reg) : Field := ⟨4, r.val⟩

/-- The operand fields of an instruction, most significant first (rules R71, R73). -/
def Instr.fields : Instr → List Field
  | .cls => []
  | .ret => []
  | .jp nnn => [⟨12, nnn.toNat⟩]
  | .call nnn => [⟨12, nnn.toNat⟩]
  | .seImm x kk => [.reg x, ⟨8, kk.toNat⟩]
  | .sneImm x kk => [.reg x, ⟨8, kk.toNat⟩]
  | .seReg x y => [.reg x, .reg y]
  | .ldImm x kk => [.reg x, ⟨8, kk.toNat⟩]
  | .addImm x kk => [.reg x, ⟨8, kk.toNat⟩]
  | .ldReg x y => [.reg x, .reg y]
  | .orReg x y => [.reg x, .reg y]
  | .andReg x y => [.reg x, .reg y]
  | .xorReg x y => [.reg x, .reg y]
  | .addReg x y => [.reg x, .reg y]
  | .subReg x y => [.reg x, .reg y]
  | .shr x y => [.reg x, .reg y]
  | .subn x y => [.reg x, .reg y]
  | .shl x y => [.reg x, .reg y]
  | .sneReg x y => [.reg x, .reg y]
  | .ldI nnn => [⟨12, nnn.toNat⟩]
  | .jpV0 nnn => [⟨12, nnn.toNat⟩]
  | .rnd x kk => [.reg x, ⟨8, kk.toNat⟩]
  | .drw x y n => [.reg x, .reg y, ⟨4, n.toNat⟩]
  | .skp x => [.reg x]
  | .sknp x => [.reg x]
  | .ldVxDT x => [.reg x]
  | .ldVxK x => [.reg x]
  | .ldDTVx x => [.reg x]
  | .ldSTVx x => [.reg x]
  | .addI x => [.reg x]
  | .ldF x => [.reg x]
  | .ldB x => [.reg x]
  | .storeRegs x => [.reg x]
  | .loadRegs x => [.reg x]

/-- Every operand fits its field. The operand types already bound each field to its width, so every term of `Instr` passes
(the per-instruction family EncodeRow of Laws/PerInstr.lean says so); what can be ill-formed is a raw field or a raw word. -/
def Instr.wellFormed (i : Instr) : Bool := i.fields.all Field.fits

/-- One row of the opcode table: the word w is of this row when w AND mask = pattern. -/
structure OpcodeRow where
  mnemonic : String
  pattern : Word
  mask : Word
  deriving DecidableEq, Repr

/-- The row matches the word. -/
def OpcodeRow.fitsWord (r : OpcodeRow) (w : Word) : Bool := (w &&& r.mask) == r.pattern

/-- The rows of formats O and NNN (rule R71). -/
def rowsOandNNN : List OpcodeRow := [
  ⟨"CLS", 0x00E0, 0xFFFF⟩,
  ⟨"RET", 0x00EE, 0xFFFF⟩,
  ⟨"JP_nnn", 0x1000, 0xF000⟩,
  ⟨"CALL_nnn", 0x2000, 0xF000⟩,
  ⟨"LD_I__nnn", 0xA000, 0xF000⟩,
  ⟨"JP_V0__nnn", 0xB000, 0xF000⟩]

/-- The rows of formats XKK and XYN. -/
def rowsXKKandXYN : List OpcodeRow := [
  ⟨"SE_Vx__kk", 0x3000, 0xF000⟩,
  ⟨"SNE_Vx__kk", 0x4000, 0xF000⟩,
  ⟨"LD_Vx__kk", 0x6000, 0xF000⟩,
  ⟨"ADD_Vx__kk", 0x7000, 0xF000⟩,
  ⟨"RND_Vx__kk", 0xC000, 0xF000⟩,
  ⟨"DRW_Vx__Vy__n", 0xD000, 0xF000⟩]

/-- The rows of format XYF. -/
def rowsXYF : List OpcodeRow := [
  ⟨"SE_Vx__Vy", 0x5000, 0xF00F⟩,
  ⟨"LD_Vx__Vy", 0x8000, 0xF00F⟩,
  ⟨"OR_Vx__Vy", 0x8001, 0xF00F⟩,
  ⟨"AND_Vx__Vy", 0x8002, 0xF00F⟩,
  ⟨"XOR_Vx__Vy", 0x8003, 0xF00F⟩,
  ⟨"ADD_Vx__Vy", 0x8004, 0xF00F⟩,
  ⟨"SUB_Vx__Vy", 0x8005, 0xF00F⟩,
  ⟨"SHR_Vx", 0x8006, 0xF00F⟩,
  ⟨"SUBN_Vx__Vy", 0x8007, 0xF00F⟩,
  ⟨"SHL_Vx", 0x800E, 0xF00F⟩,
  ⟨"SNE_Vx__Vy", 0x9000, 0xF00F⟩]

/-- The rows of format XFF. -/
def rowsXFF : List OpcodeRow := [
  ⟨"SKP_Vx", 0xE09E, 0xF0FF⟩,
  ⟨"SKNP_Vx", 0xE0A1, 0xF0FF⟩,
  ⟨"LD_Vx__DT", 0xF007, 0xF0FF⟩,
  ⟨"LD_Vx__K", 0xF00A, 0xF0FF⟩,
  ⟨"LD_DT__Vx", 0xF015, 0xF0FF⟩,
  ⟨"LD_ST__Vx", 0xF018, 0xF0FF⟩,
  ⟨"ADD_I__Vx", 0xF01E, 0xF0FF⟩,
  ⟨"LD_F__Vx", 0xF029, 0xF0FF⟩,
  ⟨"LD_B__Vx", 0xF033, 0xF0FF⟩,
  ⟨"LD__I___Vx", 0xF055, 0xF0FF⟩,
  ⟨"LD_Vx___I", 0xF065, 0xF0FF⟩]

/-- The opcode table of rule R80 with the masks of spec/opcode_table.json, all 34 rows. -/
def opcodeTable : List OpcodeRow := rowsOandNNN ++ rowsXKKandXYN ++ rowsXYF ++ rowsXFF

/-- The check on a raw word: some row of the table matches it. The other words are Unknown (rules R82, R86). -/
def wordIsLegal (w : Word) : Bool := opcodeTable.any fun r => r.fitsWord w

/-- The mnemonic of an instruction's row, as spec/opcode_table.json spells it. -/
def Instr.mnemonic : Instr → String
  | .cls => "CLS"
  | .ret => "RET"
  | .jp _ => "JP_nnn"
  | .call _ => "CALL_nnn"
  | .seImm _ _ => "SE_Vx__kk"
  | .sneImm _ _ => "SNE_Vx__kk"
  | .seReg _ _ => "SE_Vx__Vy"
  | .ldImm _ _ => "LD_Vx__kk"
  | .addImm _ _ => "ADD_Vx__kk"
  | .ldReg _ _ => "LD_Vx__Vy"
  | .orReg _ _ => "OR_Vx__Vy"
  | .andReg _ _ => "AND_Vx__Vy"
  | .xorReg _ _ => "XOR_Vx__Vy"
  | .addReg _ _ => "ADD_Vx__Vy"
  | .subReg _ _ => "SUB_Vx__Vy"
  | .shr _ _ => "SHR_Vx"
  | .subn _ _ => "SUBN_Vx__Vy"
  | .shl _ _ => "SHL_Vx"
  | .sneReg _ _ => "SNE_Vx__Vy"
  | .ldI _ => "LD_I__nnn"
  | .jpV0 _ => "JP_V0__nnn"
  | .rnd _ _ => "RND_Vx__kk"
  | .drw _ _ _ => "DRW_Vx__Vy__n"
  | .skp _ => "SKP_Vx"
  | .sknp _ => "SKNP_Vx"
  | .ldVxDT _ => "LD_Vx__DT"
  | .ldVxK _ => "LD_Vx__K"
  | .ldDTVx _ => "LD_DT__Vx"
  | .ldSTVx _ => "LD_ST__Vx"
  | .addI _ => "ADD_I__Vx"
  | .ldF _ => "LD_F__Vx"
  | .ldB _ => "LD_B__Vx"
  | .storeRegs _ => "LD__I___Vx"
  | .loadRegs _ => "LD_Vx___I"

end Sys2Proof
end

