-- ==== Sys2Proof/Config.lean ====
section
/-! DEFINITION. The parameters of rule R8: what the spec leaves to the implementation. -/

namespace Sys2Proof

/-- VF_ORDER: which of the two writes of 8xy4, 8xy5, 8xy6, 8xy7 and 8xyE comes first (rules R8, R121; decision D7). -/
inductive VfOrder where
  | flagThenResult
  | resultThenFlag
  deriving DecidableEq, Repr

/-- The parameters an instruction reads. They are fixed for a session and no step writes them, but they stand in `State` as
plain data, so that a statement about every state holds for every setting (log entry 3). -/
structure Config where
  /-- VF_ORDER (rule R121). -/
  vfOrder : VfOrder
  /-- FONT_BASE, a 12-bit address (rule R8). -/
  fontBase : Addr
  deriving DecidableEq, Repr

/-- D19: FONT_BASE + 80 <= 0x200, so that the font lies in the reserved region. -/
def Config.wf (c : Config) : Bool := decide (c.fontBase.toNat + 80 ≤ 0x200)

/-- Everything `init` takes (rules R8, R320): the parameters above, FONT_GLYPHS and SEED. -/
structure InitParams where
  config : Config
  /-- FONT_GLYPHS: 80 bytes, 5 a glyph (rule R37). -/
  glyphs : Vector Byte 80
  /-- SEED: a free 32-bit input (rule R150). -/
  seed : RngState
  deriving DecidableEq, Repr

end Sys2Proof
end

