-- ==== Sys2Proof/Machine/Memory.lean ====
section
/-! DEFINITION. The 4096-byte memory (rules R32, R50) as a canonical sparse list, and its byte and block accesses. -/

namespace Sys2Proof.Machine

/-- The bytes that are not zero, addresses strictly rising. An address that is not listed reads 0: the reset contents of
every byte outside the font and the ROM (rules R32, R38). -/
abbrev Memory := List Host.Cell

/-- What an unlisted address reads as (rules R32, R38). -/
def Memory.unlisted : Byte := 0

/-- R51: "Every memory index is masked to 12 bits before use." Taking the low 12 bits of a natural number. -/
def maskAddr (a : Nat) : Nat := a % 4096

/-- The byte at a masked address. -/
def Memory.read : Memory → Nat → Byte
  | [], _ => Memory.unlisted
  | c :: m, k => if k = c.1 then c.2 else Memory.read m k

/-- Store one byte at a masked address, keeping the canonical form: storing what an unlisted address reads as drops the entry. -/
def Memory.write : Memory → Nat → Byte → Memory
  | [], k, v => if v = Memory.unlisted then [] else [(k, v)]
  | c :: m, k, v =>
    if k < c.1 then (if v = Memory.unlisted then c :: m else (k, v) :: c :: m)
    else if k = c.1 then (if v = Memory.unlisted then m else (k, v) :: m)
    else c :: Memory.write m k v

/-- The canonical form from address `lo` on: addresses at least `lo`, strictly rising, inside the 4096 bytes, and no entry
equal to what an unlisted address reads as. -/
def Memory.wfFrom : Nat → Memory → Bool
  | _, [] => true
  | lo, c :: m => decide (lo ≤ c.1) && decide (c.1 < 4096) && decide (c.2 ≠ Memory.unlisted) && Memory.wfFrom (c.1 + 1) m

/-- The canonical form. -/
def Memory.wf (m : Memory) : Bool := Memory.wfFrom 0 m

/-- Store bytes at a, a + 1, …, each address masked by itself, in increasing address order (rules R51, R52, R55). -/
def Memory.writeBlock : Memory → Nat → List Byte → Memory
  | m, _, [] => m
  | m, a, b :: bs => Memory.writeBlock (Memory.write m (maskAddr a) b) (a + 1) bs

/-- Read n bytes at a, a + 1, …, each address masked by itself (rules R51, R55). -/
def Memory.readBlock (m : Memory) (a : Nat) : Nat → List Byte
  | 0 => []
  | n + 1 => Memory.read m (maskAddr a) :: Memory.readBlock m (a + 1) n

end Sys2Proof.Machine
end

