-- ==== Sys2Proof/Machine/Boot.lean ====
section
/-! DEFINITION. What `init` puts into memory and the generator (rules R150, R320), and the default parameters of rule R8 (decisions D7, D19, D20, D21) that `State.reset` is made with. -/

namespace Sys2Proof.Machine

/-- R150: "a zero seed is coerced to 1". -/
def seedRng (seed : RngState) : RngState := if seed = 0 then 1 else seed

/-- Memory after `init`: zero, but for the font at FONT_BASE (rules R37, R320). -/
def initialMemory (p : InitParams) : Memory := Memory.writeBlock [] p.config.fontBase.toNat p.glyphs.toList

/-- The program's start address (rules R7, R24, R320). -/
def programStart : Word := 0x200

/-- D19: the default FONT_BASE, 0x050. -/
def defaultFontBase : Addr := 0x050

/-- D7: the default VF_ORDER. -/
def defaultVfOrder : VfOrder := .flagThenResult

/-- DESIGN CHOICE (log entry 7): the seed of `State.reset`. The spec takes SEED as a free input of `init`; its test vectors use 1. -/
def defaultSeed : RngState := 1

/-- The glyphs of digits 0 to 7 of rule R37. -/
def glyphs0to7 : List (List Byte) := [
  [0xF0, 0x90, 0x90, 0x90, 0xF0],
  [0x20, 0x60, 0x20, 0x20, 0x70],
  [0xF0, 0x10, 0xF0, 0x80, 0xF0],
  [0xF0, 0x10, 0xF0, 0x10, 0xF0],
  [0x90, 0x90, 0xF0, 0x10, 0x10],
  [0xF0, 0x80, 0xF0, 0x10, 0xF0],
  [0xF0, 0x80, 0xF0, 0x90, 0xF0],
  [0xF0, 0x10, 0x20, 0x40, 0x40]]

/-- The glyphs of digits 8 to F of rule R37. -/
def glyphs8toF : List (List Byte) := [
  [0xF0, 0x90, 0xF0, 0x90, 0xF0],
  [0xF0, 0x90, 0xF0, 0x10, 0xF0],
  [0xF0, 0x90, 0xF0, 0x90, 0x90],
  [0xE0, 0x90, 0xE0, 0x90, 0xE0],
  [0xF0, 0x80, 0x80, 0x80, 0xF0],
  [0xE0, 0x90, 0x90, 0x90, 0xE0],
  [0xF0, 0x80, 0xF0, 0x80, 0xF0],
  [0xF0, 0x80, 0xF0, 0x80, 0x80]]

/-- PRESUMED by the spec (R37: "[from general knowledge, not in source]"; log entry 6): the default FONT_GLYPHS, glyph d at bytes 5 * d to 5 * d + 4. -/
def defaultGlyphs : Vector Byte 80 :=
  Vector.ofFn fun k => ((glyphs0to7 ++ glyphs8toF).flatten).getD k.val 0

/-- The parameters of `State.reset`. -/
def defaultParams : InitParams where
  config := { vfOrder := defaultVfOrder, fontBase := defaultFontBase }
  glyphs := defaultGlyphs
  seed := defaultSeed

end Sys2Proof.Machine
end

