-- ==== Sys2Proof/Machine/Display.lean ====
section
/-! DEFINITION. The 64 by 32 display (rule R33): its cells, the blit of one sprite bit, and the forms the host reads (rule R253). -/

namespace Sys2Proof.Machine

/-- The 2048 cells as 32 rows of 64 bits, row 0 on top. A row is in R253's packed-bit order: its most significant bit is column 0. -/
abbrev Display := Vector (BitVec 64) 32

/-- Every cell off (rules R38, R250). -/
def Display.blank : Display := Vector.replicate 32 0

/-- Row y. There is none past row 31, and nothing asks for one; it reads as off. -/
def Display.row (d : Display) (y : Nat) : BitVec 64 := if h : y < 32 then d[y] else 0

/-- `disp[x][y]`: the cell at column x and row y (rule R33). -/
def Display.cell (d : Display) (x y : Nat) : Bool := (d.row y).getMsbD x

/-- The row with only the cell at column x on. -/
def Display.columnMask (x : Nat) : BitVec 64 := 0x8000000000000000#64 >>> x

/-- `disp[x][y] <- disp[x][y] ^ 1`. -/
def Display.flip (d : Display) (x y : Nat) : Display :=
  if h : y < 32 then d.set y (d[y] ^^^ Display.columnMask x) else d

/-- The display and the collision seen so far, while a sprite is drawn. -/
abbrev Blit := Display × Bool

/-- One sprite bit (rule R251): "clip, do not wrap"; a bit that is on flips its cell, and collides when the cell was on. -/
def blitBit (cx cy : Nat) (bit : Bool) (p : Blit) : Blit :=
  if cx ≤ 63 ∧ cy ≤ 31 ∧ bit = true then (p.1.flip cx cy, p.2 || p.1.cell cx cy) else p

/-- The sprite bit of column j, 0 to 7: "MSB first" (rule R251). -/
def spriteBit (row : Byte) (j : Nat) : Bool := row.getMsbD j

/-- One sprite row at display row cy, its columns left to right from x0 (rule R251). -/
def blitRow (x0 cy : Nat) (row : Byte) (p : Blit) : Blit :=
  (List.range 8).foldl (fun q j => blitBit (x0 + j) cy (spriteBit row j) q) p

/-- The sprite rows, top first, from display row y0 (rule R251). -/
def blitRows (x0 : Nat) : Nat → List Byte → Blit → Blit
  | _, [], p => p
  | y0, row :: rows, p => blitRows x0 (y0 + 1) rows (blitRow x0 y0 row p)

/-- The cells as the flat sequence of rule R33: cell (x, y) is at index y * 64 + x. -/
def Display.flat (d : Display) : List Bool := (List.range 2048).map fun k => d.cell (k % 64) (k / 64)

/-- A cell as a 32-bit colour: on is all ones, off all zeros (rule R253). -/
def cellColour (on : Bool) : BitVec 32 := if on then 0xFFFFFFFF else 0x00000000

/-- The 32-bit colour form of rule R253: one colour a cell, in flat order. -/
def Display.colours (d : Display) : List (BitVec 32) := d.flat.map cellColour

/-- The packed bits of columns 8 * k to 8 * k + 7 of row y: cell x is bit 7 - (x mod 8) of byte x / 8 (rule R253). -/
def Display.packedByte (d : Display) (y k : Nat) : Byte := (d.row y).extractLsb' (56 - 8 * k) 8

/-- The packed form of rule R253, 8 bytes a row. -/
def Display.packed (d : Display) : List Byte := (List.range 256).map fun k => d.packedByte (k / 8) (k % 8)

/-- Bytes a row, for 32-bit cells and for packed bits (rule R253). -/
def Display.colourPitch : Nat := 256
/-- Bytes a row of the packed form (rule R253). -/
def Display.packedPitch : Nat := 8

end Sys2Proof.Machine
end

