-- ==== Sys2Proof/Machine/State.lean ====
section
/-! DEFINITION. MachineState (rule R20) as plain data, the error records (rule R281), and the state after reset (rules R38, R320). -/

namespace Sys2Proof.Machine

/-- The kinds of error of rule R281. -/
inductive ErrorKind where
  /-- Raised by decode, for any word of rule R82. -/
  | unknownOpcode
  /-- Raised by 2nnn CALL with sp = 16. -/
  | stackOverflow
  /-- Raised by 00EE RET with sp = 0. -/
  | stackUnderflow
  /-- Raised by Ex9E and ExA1 with V[x] > 15. -/
  | invalidKeyIndex
  /-- A result of the ROM loader, never of a step. -/
  | romTooLarge
  /-- Surfaced by the host's I/O collaborator, never by the core. -/
  | romUnreadable
  deriving DecidableEq, Repr

/-- The spec's own numbering (rule R281, decision D18). -/
def ErrorKind.code : ErrorKind → Nat
  | .unknownOpcode => 1
  | .stackOverflow => 2
  | .stackUnderflow => 3
  | .invalidKeyIndex => 4
  | .romTooLarge => 5
  | .romUnreadable => 6

/-- An error record (rule R281). opcode and pc are absent in RomTooLarge and RomUnreadable. info is the key value of
InvalidKeyIndex, the ROM length of RomTooLarge, and absent otherwise. The record's code is its kind's. -/
structure ErrorRecord where
  kind : ErrorKind
  opcode : Option Word
  pc : Option Word
  info : Option Nat
  deriving DecidableEq, Repr

/-- The code field of the record (rule R281). -/
def ErrorRecord.code (e : ErrorRecord) : Nat := e.kind.code

/-- The session status (rule R35). -/
inductive Status where
  | running
  | halted (err : ErrorRecord)
  deriving DecidableEq, Repr

/-- MachineState: every component of rule R20, under the spec's names, and the parameters an instruction reads. -/
structure State where
  /-- V0 to VF (rule R21); V[15] is also the flag (rule R22). -/
  V : Vector Byte 16
  /-- The index register (rule R25). -/
  I : Word
  /-- The program counter (rule R24). -/
  pc : Word
  /-- The stack depth, 0 to 16 (rule R26). -/
  sp : Fin 17
  /-- The return stack (rule R27). -/
  stack : Vector Word 16
  /-- The delay timer (rule R28). -/
  DT : Byte
  /-- The sound timer (rule R29). -/
  ST : Byte
  /-- The most recently fetched instruction word (rule R30). -/
  opcode : Word
  /-- The state of the pseudo-random byte generator (rule R31). -/
  rng : RngState
  /-- The 4096 bytes of memory (rule R32). -/
  mem : Memory
  /-- The display (rule R33). -/
  disp : Display
  /-- The keypad: `key[k]` is true when key k is pressed (rule R34). -/
  key : Vector Bool 16
  /-- The session status (rule R35). -/
  status : Status
  /-- The parameters VF_ORDER and FONT_BASE of rule R8, fixed for the session (log entry 3). -/
  cfg : Config
  deriving DecidableEq, Repr

/-- Why a step, a tick or a keypad write has no successor state. -/
inductive Fault where
  /-- The session is over: "In state Halted no step and no tick is enabled" (rule R286). Raised by `step`, `tick` and
  `setKeypad` on a halted state, never by an instruction. Safe: the spec gives the state no successor. -/
  | halted (err : ErrorRecord)
  deriving DecidableEq, Repr

/-- Why an instruction is refused. "No step is refused" (rule R106), so no state of this model leads here. -/
inductive Refusal where
  /-- An instruction without a meaning yet; no arm of `exec` answers with it. Safe. -/
  | notModelled (mnemonic : String)
  deriving DecidableEq, Repr

/-- `init(seed)` (rules R38, R320): everything zero, then the font, pc = 0x200, the generator and the status. -/
def State.init (p : InitParams) : State where
  V := Vector.replicate 16 0
  I := 0
  pc := programStart
  sp := 0
  stack := Vector.replicate 16 0
  DT := 0
  ST := 0
  opcode := 0
  rng := seedRng p.seed
  mem := initialMemory p
  disp := Display.blank
  key := Vector.replicate 16 false
  status := .running
  cfg := p.config

/-- The machine right after `init` with the default parameters, and no ROM loaded (rule R38). -/
def State.reset : State := State.init defaultParams

end Sys2Proof.Machine
end

