-- ==== Sys2Proof/Machine/Ops.lean ====
section
/-! DEFINITION. The pseudocode primitives of rule R12 over the state, the fetch and advance of a step, raising an error, the generator. -/

namespace Sys2Proof.Machine

/-- `V[i]` (rule R12). -/
def State.reg (s : State) (r : Reg) : Byte := s.V.get r

/-- `V[i] <- v` (rule R12). -/
def State.setReg (s : State) (r : Reg) (v : Byte) : State := { s with V := s.V.set r.val v r.isLt }

/-- `MemRead(a, 1)` (rules R12, R51). -/
def State.memRead (s : State) (a : Nat) : Byte := s.mem.read (maskAddr a)

/-- `MemWrite(a, 1, v)` for v the bytes of a list at a, a + 1, … (rules R12, R51, R55). -/
def State.memWriteBlock (s : State) (a : Nat) (bs : List Byte) : State := { s with mem := s.mem.writeBlock a bs }

/-- The n bytes at a, a + 1, … (rules R51, R55). -/
def State.memReadBlock (s : State) (a n : Nat) : List Byte := s.mem.readBlock a n

/-- The word fetch reads at pc: `MemRead(pc, 1) ++ MemRead(pc + 1, 1)` (rules R52, R101). -/
def State.fetchWord (s : State) : Word := wordOfBytes (s.memRead s.pc.toNat) (s.memRead (s.pc.toNat + 1))

/-- `pc <- (pc + 2) mod 2^16`: the advance (rule R102), and a taken skip (rule R160). -/
def State.advance (s : State) : State := { s with pc := s.pc + 2 }

/-- Fetch and advance, the first two stages of a step: opcode holds the fetched word and pc the next address (rules R101, R102). -/
def State.fetched (s : State) : State := { s with opcode := s.fetchWord, pc := s.pc + 2 }

/-- `if cond then pc <- (pc + 2) mod 2^16` (rule R160). -/
def State.skipIf (s : State) (cond : Bool) : State := if cond then s.advance else s

/-- `pc <- target` (rule R12). -/
def State.jump (s : State) (target : Word) : State := { s with pc := target }

/-- The fetch address A of the instruction in execution: during the execute stage pc = A + 2 mod 2^16 (rules R102, R105). -/
def State.fetchAddr (s : State) : Word := s.pc - 2

/-- The error record of a step (rules R105, R281): the fetched word and the fetch address. -/
def State.errorRecord (s : State) (kind : ErrorKind) (info : Option Nat) : ErrorRecord where
  kind := kind
  opcode := some s.opcode
  pc := some s.fetchAddr
  info := info

/-- `raise E(info)`, the one way an error is taken (rules R105, R286, R288): the status becomes Halted with the record and
nothing else changes, so pc stays A + 2 and opcode the faulting word. There is no return from it (rule R289). -/
def State.raise (s : State) (kind : ErrorKind) (info : Option Nat) : State :=
  { s with status := .halted (s.errorRecord kind info) }

/-- CALL's push below a full stack: `stack[sp] <- pc; sp <- sp + 1` (rule R162). -/
def State.push (s : State) (h : s.sp.val < 16) : State :=
  { s with stack := s.stack.set s.sp.val s.pc h, sp := ⟨s.sp.val + 1, by omega⟩ }

/-- RET's pop, of a stack that execRet has found not empty: `sp <- sp - 1; pc <- stack[sp]`; the entry keeps its value (rules R27, R161). -/
def State.pop (s : State) : State :=
  { s with sp := ⟨s.sp.val - 1, by omega⟩, pc := s.stack[s.sp.val - 1]'(by omega) }

/-- One advance of the generator: three xor-shift steps, left 13, right 17, left 5 (rule R151). -/
def rngAdvance (s : RngState) : RngState :=
  let a := s ^^^ (s <<< 13)
  let b := a ^^^ (a >>> 17)
  b ^^^ (b <<< 5)

/-- The byte `NextByte()` returns from the advanced state: its low 8 bits (rule R152). -/
def rngByte (s : RngState) : Byte := s.setWidth 8

end Sys2Proof.Machine
end

