-- ==== Sys2Proof/Machine/Flags.lean ====
section
/-! DEFINITION. Every flag VF receives (rule R22), and the order of a flag write and a result write (rule R121). -/

namespace Sys2Proof.Machine

/-- A flag as the byte VF holds: 0 or 1 (rule R121). -/
def flagByte (b : Bool) : Byte := if b then 1 else 0

/-- 8xy4: "`VF = 1` iff sum > 255", on the exact 9-bit sum (rule R128). -/
def carryFlag (a b : Byte) : Byte := flagByte (decide (a.toNat + b.toNat > 255))

/-- 8xy5 and 8xy7, a the number taken from: strictly greater, so equal operands give 0 (rules R129, R130). -/
def noBorrowFlag (a b : Byte) : Byte := flagByte (decide (a.toNat > b.toNat))

/-- 8xy6: the bit shifted out, bit 0 (rule R131). -/
def shiftRightFlag (a : Byte) : Byte := a &&& 1

/-- 8xyE: the bit shifted out, bit 7 (rule R132). -/
def shiftLeftFlag (a : Byte) : Byte := (a >>> 7) &&& 1

/-- `WriteFlagResult(x, res, f)` (rule R121): with x = 15 both writes land in VF and VF_ORDER says which is last. -/
def State.writeFlagResult (s : State) (x : Reg) (res f : Byte) : State :=
  match s.cfg.vfOrder with
  | .flagThenResult => (s.setReg VF f).setReg x res
  | .resultThenFlag => (s.setReg x res).setReg VF f

end Sys2Proof.Machine
end

