-- ==== Sys2Proof/Machine/Operands.lean ====
section
/-! DEFINITION. The operand forms (rules R11, R73, R196): zero extension, I plus an offset, register blocks, BCD digits, key numbers, sprite positions. -/

namespace Sys2Proof.Machine

/-- `zext_16(nnn)` (rules R11, R73). -/
def zext16 (nnn : Addr) : Word := nnn.setWidth 16

/-- Bnnn's target `zext_16(nnn) + V[0]`, not masked (rule R168). -/
def State.v0Target (s : State) (nnn : Addr) : Word := zext16 nnn + (s.reg 0).setWidth 16

/-- The address of byte k of a transfer before the mask: I + k (rules R51, R196). -/
def State.dataAddr (s : State) (k : Nat) : Nat := s.I.toNat + k

/-- Fx29's `FONT_BASE + 5 * V[x]`, not masked (rule R192). -/
def State.glyphAddr (s : State) (x : Reg) : Word := zext16 s.cfg.fontBase + 5 * (s.reg x).setWidth 16

/-- Fx33's three digits, hundreds first (rule R193). -/
def bcdDigits (v : Byte) : List Byte :=
  [BitVec.ofNat 8 (v.toNat / 100), BitVec.ofNat 8 (v.toNat / 10 % 10), BitVec.ofNat 8 (v.toNat % 10)]

/-- V0 to Vx, x the register number (rule R194, conflict C3). -/
def State.regBlock (s : State) (x : Reg) : List Byte := s.V.toList.take (x.val + 1)

/-- `V[i] <- bytes[i]` for every i the list reaches (rule R195). -/
def State.setRegBlock (s : State) (bytes : List Byte) : State :=
  { s with V := Vector.ofFn fun i => bytes.getD i.val (s.V.get i) }

/-- The key a value names: a key number is 0 to 15 (rules R34, R220). -/
def keyIndex (v : Byte) : Option (Fin 16) := if h : v.toNat < 16 then some ⟨v.toNat, h⟩ else none

/-- `key[k]` (rule R12). -/
def State.keyDown (s : State) (k : Fin 16) : Bool := s.key.get k

/-- The lowest-numbered pressed key: keys 0 to 15 in ascending order (rule R225). -/
def State.firstKey (s : State) : Option (Fin 16) := (List.finRange 16).find? s.keyDown

/-- DRW's start column `V[x] mod 64` (rule R251). -/
def State.startColumn (s : State) (x : Reg) : Nat := (s.reg x).toNat % 64

/-- DRW's start row `V[y] mod 32` (rule R251). -/
def State.startRow (s : State) (y : Reg) : Nat := (s.reg y).toNat % 32

/-- DRW's n sprite rows, from I on (rules R196, R251). -/
def State.spriteRows (s : State) (n : Nibble) : List Byte := s.memReadBlock (s.dataAddr 0) n.toNat

end Sys2Proof.Machine
end

