-- ==== Sys2Proof/Machine/Arith.lean ====
section
/-! DEFINITION. Loads, arithmetic, logic and the random byte (41_arith_logic.md): 6xkk, 7xkk, 8xy0 to 8xyE, Cxkk. -/

namespace Sys2Proof.Machine

/-- 6xkk LD Vx, kk (rule R122). -/
def execLdImm (x : Reg) (kk : Byte) (s : State) : Host.Outcome State Fault Refusal := .next (s.setReg x kk)

/-- 7xkk ADD Vx, kk: no flag (rule R123). -/
def execAddImm (x : Reg) (kk : Byte) (s : State) : Host.Outcome State Fault Refusal := .next (s.setReg x (s.reg x + kk))

/-- 8xy0 LD Vx, Vy (rule R124). -/
def execLdReg (x y : Reg) (s : State) : Host.Outcome State Fault Refusal := .next (s.setReg x (s.reg y))

/-- 8xy1 OR Vx, Vy: VF is not reset (rule R125). -/
def execOrReg (x y : Reg) (s : State) : Host.Outcome State Fault Refusal := .next (s.setReg x (s.reg x ||| s.reg y))

/-- 8xy2 AND Vx, Vy: VF is not reset (rule R126). -/
def execAndReg (x y : Reg) (s : State) : Host.Outcome State Fault Refusal := .next (s.setReg x (s.reg x &&& s.reg y))

/-- 8xy3 XOR Vx, Vy: VF is not reset (rule R127). -/
def execXorReg (x y : Reg) (s : State) : Host.Outcome State Fault Refusal := .next (s.setReg x (s.reg x ^^^ s.reg y))

/-- 8xy4 ADD Vx, Vy (rule R128). -/
def execAddReg (x y : Reg) (s : State) : Host.Outcome State Fault Refusal :=
  .next (s.writeFlagResult x (s.reg x + s.reg y) (carryFlag (s.reg x) (s.reg y)))

/-- 8xy5 SUB Vx, Vy: Vx - Vy (rule R129). -/
def execSubReg (x y : Reg) (s : State) : Host.Outcome State Fault Refusal :=
  .next (s.writeFlagResult x (s.reg x - s.reg y) (noBorrowFlag (s.reg x) (s.reg y)))

/-- 8xy6 SHR Vx: y is ignored (rules R74, R131). -/
def execShr (x _y : Reg) (s : State) : Host.Outcome State Fault Refusal :=
  .next (s.writeFlagResult x (s.reg x >>> 1) (shiftRightFlag (s.reg x)))

/-- 8xy7 SUBN Vx, Vy: Vy - Vx (rule R130). -/
def execSubn (x y : Reg) (s : State) : Host.Outcome State Fault Refusal :=
  .next (s.writeFlagResult x (s.reg y - s.reg x) (noBorrowFlag (s.reg y) (s.reg x)))

/-- 8xyE SHL Vx: y is ignored (rules R74, R132). -/
def execShl (x _y : Reg) (s : State) : Host.Outcome State Fault Refusal :=
  .next (s.writeFlagResult x (s.reg x <<< 1) (shiftLeftFlag (s.reg x)))

/-- Cxkk RND Vx, kk: rng advances once, whatever kk is (rules R133, R152). -/
def execRnd (x : Reg) (kk : Byte) (s : State) : Host.Outcome State Fault Refusal :=
  .next ({ s with rng := rngAdvance s.rng }.setReg x (rngByte (rngAdvance s.rng) &&& kk))

end Sys2Proof.Machine
end

