-- ==== Sys2Proof/Machine/Control.lean ====
section
/-! DEFINITION. Control flow (42_control_flow.md): 00EE, 1nnn, 2nnn, the register and immediate skips, Bnnn. pc is A + 2 on entry. -/

namespace Sys2Proof.Machine

/-- 00EE RET: StackUnderflow when sp = 0, before any write (rules R161, R284). -/
def execRet (s : State) : Host.Outcome State Fault Refusal :=
  if s.sp.val = 0 then .next (s.raise .stackUnderflow none) else .next s.pop

/-- 1nnn JP nnn (rule R163). -/
def execJp (nnn : Addr) (s : State) : Host.Outcome State Fault Refusal := .next (s.jump (zext16 nnn))

/-- 2nnn CALL nnn: StackOverflow when sp = 16, before any write (rules R162, R282). -/
def execCall (nnn : Addr) (s : State) : Host.Outcome State Fault Refusal :=
  if h : s.sp.val < 16 then .next ((s.push h).jump (zext16 nnn)) else .next (s.raise .stackOverflow none)

/-- 3xkk SE Vx, kk (rule R164). -/
def execSeImm (x : Reg) (kk : Byte) (s : State) : Host.Outcome State Fault Refusal := .next (s.skipIf (s.reg x == kk))

/-- 4xkk SNE Vx, kk (rule R165). -/
def execSneImm (x : Reg) (kk : Byte) (s : State) : Host.Outcome State Fault Refusal := .next (s.skipIf (s.reg x != kk))

/-- 5xy0 SE Vx, Vy (rule R166). -/
def execSeReg (x y : Reg) (s : State) : Host.Outcome State Fault Refusal := .next (s.skipIf (s.reg x == s.reg y))

/-- 9xy0 SNE Vx, Vy (rule R167). -/
def execSneReg (x y : Reg) (s : State) : Host.Outcome State Fault Refusal := .next (s.skipIf (s.reg x != s.reg y))

/-- Bnnn JP V0, nnn (rule R168). -/
def execJpV0 (nnn : Addr) (s : State) : Host.Outcome State Fault Refusal := .next (s.jump (s.v0Target nnn))

end Sys2Proof.Machine
end

