-- ==== Sys2Proof/Machine/Draw.lean ====
section
/-! DEFINITION. The display instructions (45_display.md): 00E0 and the sprite blit Dxyn. -/

namespace Sys2Proof.Machine

/-- 00E0 CLS (rule R250). -/
def execCls (s : State) : Host.Outcome State Fault Refusal := .next { s with disp := Display.blank }

/-- DRW's blit on the state's display: rows from I, start position from the old registers (rule R251, decision D8). -/
def State.blit (s : State) (x y : Reg) (n : Nibble) : Blit :=
  blitRows (s.startColumn x) (s.startRow y) (s.spriteRows n) (s.disp, false)

/-- Dxyn DRW Vx, Vy, n: VF is 1 when a drawn bit met a cell that was on, and 0 otherwise (rule R251). -/
def execDrw (x y : Reg) (n : Nibble) (s : State) : Host.Outcome State Fault Refusal :=
  .next ({ s with disp := (s.blit x y n).1 }.setReg VF (flagByte (s.blit x y n).2))

end Sys2Proof.Machine
end

