-- ==== Sys2Proof/Machine/KeyTimer.lean ====
section
/-! DEFINITION. Keypad and timer instructions (44_keypad_timer.md): Ex9E, ExA1, Fx07, Fx0A, Fx15, Fx18. pc is A + 2 on entry. -/

namespace Sys2Proof.Machine

/-- Ex9E SKP Vx: InvalidKeyIndex when V[x] > 15 (rules R220, R285). -/
def execSkp (x : Reg) (s : State) : Host.Outcome State Fault Refusal :=
  match keyIndex (s.reg x) with
  | some k => .next (s.skipIf (s.keyDown k))
  | none => .next (s.raise .invalidKeyIndex (some (s.reg x).toNat))

/-- ExA1 SKNP Vx: InvalidKeyIndex when V[x] > 15 (rules R221, R285). -/
def execSknp (x : Reg) (s : State) : Host.Outcome State Fault Refusal :=
  match keyIndex (s.reg x) with
  | some k => .next (s.skipIf (!s.keyDown k))
  | none => .next (s.raise .invalidKeyIndex (some (s.reg x).toNat))

/-- Fx07 LD Vx, DT (rule R222). -/
def execLdVxDT (x : Reg) (s : State) : Host.Outcome State Fault Refusal := .next (s.setReg x s.DT)

/-- Fx0A LD Vx, K: the lowest pressed key; with none, pc goes back to A so that the same instruction runs again (rule R225). -/
def execLdVxK (x : Reg) (s : State) : Host.Outcome State Fault Refusal :=
  match s.firstKey with
  | some k => .next (s.setReg x (BitVec.ofNat 8 k.val))
  | none => .next (s.jump (s.pc - 2))

/-- Fx15 LD DT, Vx (rule R223). -/
def execLdDTVx (x : Reg) (s : State) : Host.Outcome State Fault Refusal := .next { s with DT := s.reg x }

/-- Fx18 LD ST, Vx (rule R224). -/
def execLdSTVx (x : Reg) (s : State) : Host.Outcome State Fault Refusal := .next { s with ST := s.reg x }

end Sys2Proof.Machine
end

