-- ==== Sys2Proof/Machine/Transfer.lean ====
section
/-! DEFINITION. The index register and memory transfers (43_memory_transfer.md): Annn, Fx1E, Fx29, Fx33, Fx55, Fx65. -/

namespace Sys2Proof.Machine

/-- Annn LD I, nnn (rule R190). -/
def execLdI (nnn : Addr) (s : State) : Host.Outcome State Fault Refusal := .next { s with I := zext16 nnn }

/-- Fx1E ADD I, Vx: mod 2^16, no mask, no flag (rule R191). -/
def execAddI (x : Reg) (s : State) : Host.Outcome State Fault Refusal := .next { s with I := s.I + (s.reg x).setWidth 16 }

/-- Fx29 LD F, Vx: no error for V[x] > 15 (rule R192). -/
def execLdF (x : Reg) (s : State) : Host.Outcome State Fault Refusal := .next { s with I := s.glyphAddr x }

/-- Fx33 LD B, Vx (rule R193). -/
def execLdB (x : Reg) (s : State) : Host.Outcome State Fault Refusal :=
  .next (s.memWriteBlock (s.dataAddr 0) (bcdDigits (s.reg x)))

/-- Fx55 LD [I], Vx: V0 to Vx inclusive, I unchanged (rule R194). -/
def execStoreRegs (x : Reg) (s : State) : Host.Outcome State Fault Refusal :=
  .next (s.memWriteBlock (s.dataAddr 0) (s.regBlock x))

/-- Fx65 LD Vx, [I]: V0 to Vx inclusive, I unchanged (rule R195). -/
def execLoadRegs (x : Reg) (s : State) : Host.Outcome State Fault Refusal :=
  .next (s.setRegBlock (s.memReadBlock (s.dataAddr 0) (x.val + 1)))

end Sys2Proof.Machine
end

