-- ==== Sys2Proof/Machine/Step.lean ====
section
/-! DEFINITION. The engine's one operation, `step` (rules R100 to R105), and the placing of a word where the next step fetches it. -/

namespace Sys2Proof.Machine

/-- Decode and dispatch, the last two stages, on the state after fetch and advance (rules R103, R104): an Unknown word
raises UnknownOpcode with the word and its fetch address. -/
def dispatch (d : Except DecodeReject Instr) (s : State) : Host.Outcome State Fault Refusal :=
  match d with
  | .ok i => exec i s
  | .error _ => .next (s.raise .unknownOpcode none)

/-- One step (rule R105). It is enabled only when the status is Running; a halted session has no successor (rule R286). -/
def step (s : State) : Host.Outcome State Fault Refusal :=
  match s.status with
  | .halted e => .fault (.halted e)
  | .running => dispatch (decodeWord s.fetchWord) s.fetched

/-- s with the instruction word w where the next step fetches: its two bytes at pc and pc + 1, and the session running, which
a step needs (log entries 13 and 14). The bits of w above nbits, and above the 16 of an instruction, are dropped. -/
def State.withFetchWord (s : State) (nbits w : Nat) : State :=
  { s.memWriteBlock s.pc.toNat (wordBytes (BitVec.ofNat 16 (w % 2 ^ nbits))) with status := .running }

end Sys2Proof.Machine
end

