-- ==== Sys2Proof/Machine/Assembly.lean ====
section
/-! DEFINITION. The assembler forms (rules R16, R80, R87, R88): the mnemonic and operands of every instruction, their text, and the instruction a form stands for. Nothing in the machine reads them. -/

namespace Sys2Proof

/-- An operand of an assembler form (rule R87): a register V0 to VF, a hex number of two, three or one digits, or a literal
keyword. -/
inductive AsmOperand where
  | reg (r : Reg)
  | byte (kk : Byte)
  | addr (nnn : Addr)
  | nibble (n : Nibble)
  | kwI
  | kwDT
  | kwST
  | kwK
  | kwF
  | kwB
  | kwMemI
  deriving DecidableEq, Repr

/-- "a mnemonic, then operands separated by commas" (rule R87). -/
structure AsmForm where
  name : String
  operands : List AsmOperand
  deriving DecidableEq, Repr

/-- The shifts: `SHR Vx`, or with a second register where y is not 0, which encodes y and has no effect (rules R74, R87). -/
def shiftForm (name : String) (x y : Reg) : AsmForm :=
  if y = 0 then ⟨name, [.reg x]⟩ else ⟨name, [.reg x, .reg y]⟩

/-- The form of an instruction: the mnemonic column of rule R80. -/
def Instr.assembly : Instr → AsmForm
  | .cls => ⟨"CLS", []⟩
  | .ret => ⟨"RET", []⟩
  | .jp nnn => ⟨"JP", [.addr nnn]⟩
  | .call nnn => ⟨"CALL", [.addr nnn]⟩
  | .seImm x kk => ⟨"SE", [.reg x, .byte kk]⟩
  | .sneImm x kk => ⟨"SNE", [.reg x, .byte kk]⟩
  | .seReg x y => ⟨"SE", [.reg x, .reg y]⟩
  | .ldImm x kk => ⟨"LD", [.reg x, .byte kk]⟩
  | .addImm x kk => ⟨"ADD", [.reg x, .byte kk]⟩
  | .ldReg x y => ⟨"LD", [.reg x, .reg y]⟩
  | .orReg x y => ⟨"OR", [.reg x, .reg y]⟩
  | .andReg x y => ⟨"AND", [.reg x, .reg y]⟩
  | .xorReg x y => ⟨"XOR", [.reg x, .reg y]⟩
  | .addReg x y => ⟨"ADD", [.reg x, .reg y]⟩
  | .subReg x y => ⟨"SUB", [.reg x, .reg y]⟩
  | .shr x y => shiftForm "SHR" x y
  | .subn x y => ⟨"SUBN", [.reg x, .reg y]⟩
  | .shl x y => shiftForm "SHL" x y
  | .sneReg x y => ⟨"SNE", [.reg x, .reg y]⟩
  | .ldI nnn => ⟨"LD", [.kwI, .addr nnn]⟩
  | .jpV0 nnn => ⟨"JP", [.reg 0, .addr nnn]⟩
  | .rnd x kk => ⟨"RND", [.reg x, .byte kk]⟩
  | .drw x y n => ⟨"DRW", [.reg x, .reg y, .nibble n]⟩
  | .skp x => ⟨"SKP", [.reg x]⟩
  | .sknp x => ⟨"SKNP", [.reg x]⟩
  | .ldVxDT x => ⟨"LD", [.reg x, .kwDT]⟩
  | .ldVxK x => ⟨"LD", [.reg x, .kwK]⟩
  | .ldDTVx x => ⟨"LD", [.kwDT, .reg x]⟩
  | .ldSTVx x => ⟨"LD", [.kwST, .reg x]⟩
  | .addI x => ⟨"ADD", [.kwI, .reg x]⟩
  | .ldF x => ⟨"LD", [.kwF, .reg x]⟩
  | .ldB x => ⟨"LD", [.kwB, .reg x]⟩
  | .storeRegs x => ⟨"LD", [.kwMemI, .reg x]⟩
  | .loadRegs x => ⟨"LD", [.reg x, .kwMemI]⟩

/-- The forms of LD (rule R80). -/
def assembleLd : List AsmOperand → Option Instr
  | [.reg x, .byte kk] => some (.ldImm x kk)
  | [.reg x, .reg y] => some (.ldReg x y)
  | [.kwI, .addr nnn] => some (.ldI nnn)
  | [.reg x, .kwDT] => some (.ldVxDT x)
  | [.reg x, .kwK] => some (.ldVxK x)
  | [.kwDT, .reg x] => some (.ldDTVx x)
  | [.kwST, .reg x] => some (.ldSTVx x)
  | [.kwF, .reg x] => some (.ldF x)
  | [.kwB, .reg x] => some (.ldB x)
  | [.kwMemI, .reg x] => some (.storeRegs x)
  | [.reg x, .kwMemI] => some (.loadRegs x)
  | _ => none

/-- The forms whose operands are two registers and nothing else (rule R80). -/
def assembleRegReg (make : Reg → Reg → Instr) : List AsmOperand → Option Instr
  | [.reg x, .reg y] => some (make x y)
  | _ => none

/-- The forms whose second operand is a register or a byte (rule R80). -/
def assembleRegAny (imm : Reg → Byte → Instr) (reg : Reg → Reg → Instr) : List AsmOperand → Option Instr
  | [.reg x, .byte kk] => some (imm x kk)
  | [.reg x, .reg y] => some (reg x y)
  | _ => none

/-- The shifts, with one register or two; with one, y is 0 (rule R87; the words of rules R131 and R132 have y = 0). -/
def assembleShift (make : Reg → Reg → Instr) : List AsmOperand → Option Instr
  | [.reg x] => some (make x 0)
  | [.reg x, .reg y] => some (make x y)
  | _ => none

/-- The instruction a form stands for; none where rule R80 has no such form. There are no pseudo-instructions (rule R88). -/
def AsmForm.assemble (f : AsmForm) : Option Instr :=
  match f.name, f.operands with
  | "CLS", [] => some .cls
  | "RET", [] => some .ret
  | "JP", [.addr nnn] => some (.jp nnn)
  | "JP", [.reg 0, .addr nnn] => some (.jpV0 nnn)
  | "CALL", [.addr nnn] => some (.call nnn)
  | "SE", ops => assembleRegAny .seImm .seReg ops
  | "SNE", ops => assembleRegAny .sneImm .sneReg ops
  | "LD", ops => assembleLd ops
  | "ADD", [.kwI, .reg x] => some (.addI x)
  | "ADD", ops => assembleRegAny .addImm .addReg ops
  | "OR", ops => assembleRegReg .orReg ops
  | "AND", ops => assembleRegReg .andReg ops
  | "XOR", ops => assembleRegReg .xorReg ops
  | "SUB", ops => assembleRegReg .subReg ops
  | "SUBN", ops => assembleRegReg .subn ops
  | "SHR", ops => assembleShift .shr ops
  | "SHL", ops => assembleShift .shl ops
  | "RND", [.reg x, .byte kk] => some (.rnd x kk)
  | "DRW", [.reg x, .reg y, .nibble n] => some (.drw x y n)
  | "SKP", [.reg x] => some (.skp x)
  | "SKNP", [.reg x] => some (.sknp x)
  | _, _ => none

/-- The hex digit of a nibble. -/
def hexDigit (n : Nat) : Char :=
  if n % 16 < 10 then Char.ofNat (48 + n % 16) else Char.ofNat (55 + n % 16)

/-- A number as `0x` and k hex digits (rule R87). -/
def hexText (k n : Nat) : List Char :=
  ['0', 'x'] ++ (List.range k).reverse.map fun d => hexDigit (n / 16 ^ d)

/-- The text of an operand (rule R87). -/
def AsmOperand.text : AsmOperand → List Char
  | .reg r => ['V', hexDigit r.val]
  | .byte kk => hexText 2 kk.toNat
  | .addr nnn => hexText 3 nnn.toNat
  | .nibble n => hexText 1 n.toNat
  | .kwI => ['I']
  | .kwDT => ['D', 'T']
  | .kwST => ['S', 'T']
  | .kwK => ['K']
  | .kwF => ['F']
  | .kwB => ['B']
  | .kwMemI => ['[', 'I', ']']

/-- The text of a form, as a list of characters: the name, then the operands separated by commas (rule R87). -/
def AsmForm.text (f : AsmForm) : List Char :=
  f.name.toList ++ (match f.operands with
    | [] => []
    | o :: os => ' ' :: o.text ++ os.flatMap fun p => ',' :: ' ' :: p.text)

/-- A data byte of a listing (rule R88). -/
def dataByteText (b : Byte) : List Char := ['D', 'B', ' '] ++ hexText 2 b.toNat

end Sys2Proof
end

