-- ==== Sys2Proof/Machine/HostOps.lean ====
section
/-! DEFINITION. The host interface: the seven operations of rule R297, when each is allowed, and one frame of the host schedule (rule R321). -/

namespace Sys2Proof.Machine

/-- `if DT > 0 then DT <- DT - 1`, for either timer (rule R230). -/
def countdown (t : Byte) : Byte := if t.toNat > 0 then t - 1 else t

/-- The timer writes of a tick (rule R230). -/
def State.ticked (s : State) : State := { s with DT := countdown s.DT, ST := countdown s.ST }

/-- `tick()`: enabled only when the status is Running (rules R230, R286). -/
def tick (s : State) : Host.Outcome State Fault Refusal :=
  match s.status with
  | .halted e => .fault (.halted e)
  | .running => .next s.ticked

/-- n ticks in a row, with no step between them. -/
def runTicks : Nat → State → Host.Outcome State Fault Refusal
  | 0, s => .next s
  | n + 1, s =>
    match tick s with
    | .next t => runTicks n t
    | .fault r => .fault r
    | .refused r => .refused r

/-- `set_keypad(k)`: replaces all 16 key bits, when the status is Running (rules R296, R297). -/
def setKeypad (k : Vector Bool 16) (s : State) : Host.Outcome State Fault Refusal :=
  match s.status with
  | .halted e => .fault (.halted e)
  | .running => .next { s with key := k }

/-- The longest ROM: 4096 - 0x200 bytes (rules R7, R323). -/
def maxRomLength : Nat := 3584

/-- The loader's result for a ROM that is too long; opcode and pc are absent (rule R281). -/
def romTooLarge (length : Nat) : ErrorRecord where
  kind := .romTooLarge
  opcode := none
  pc := none
  info := some length

/-- `load(bytes)`: RomTooLarge with no state change, or the bytes at 0x200 onwards (rule R323). -/
def loadRom (bytes : List Byte) (s : State) : Except ErrorRecord State :=
  if bytes.length > maxRomLength then .error (romTooLarge bytes.length)
  else .ok (s.memWriteBlock programStart.toNat bytes)

/-- `read_display()`: the 2048 cells in flat order, in any status (rules R253, R295). -/
def readDisplay (s : State) : List Bool := s.disp.flat

/-- `read_status()`, in any status (rule R297). -/
def readStatus (s : State) : Status := s.status

/-- Where a session stands, which decides whether `init` and `load` are allowed (rule R297, decision D28). It is the host's
history, not a component of MachineState (rule R39). -/
inductive Phase where
  /-- Before `init`. -/
  | created
  /-- After `init`, no ROM loaded yet (a failed load leaves this phase: the host may retry). -/
  | initialised
  /-- After a successful `load`, before the first step. -/
  | loaded
  /-- After the first step. -/
  | executing
  deriving DecidableEq, Repr

/-- A session: the machine and where its host stands. -/
structure Session where
  machine : State
  phase : Phase
  deriving DecidableEq, Repr

/-- The seven host operations (rule R297). -/
inductive HostOp where
  | init (p : InitParams)
  | load (bytes : List Byte)
  | step
  | tick
  | setKeypad (k : Vector Bool 16)
  | readDisplay
  | readStatus
  deriving DecidableEq, Repr

/-- What an operation answers (the result column of rule R297). -/
inductive HostResult where
  | none
  | ok
  | err (e : ErrorRecord)
  | display (cells : List Bool)
  | status (s : Status)
  deriving DecidableEq, Repr

/-- The result of a step, read off the state it left (rule R106): Ok while Running, Err when Halted. -/
def stepResult (s : State) : HostResult :=
  match s.status with
  | .running => .ok
  | .halted e => .err e

/-- A step of the session; none when it is not enabled (rule R297). -/
def Session.runStep (s : Session) : Option (Session × HostResult) :=
  match step s.machine with
  | .next t => some (⟨t, .executing⟩, stepResult t)
  | .fault _ => none
  | .refused _ => none

/-- An operation that answers nothing and leaves the phase; none when it is not enabled. -/
def Session.runQuiet (s : Session) (o : Host.Outcome State Fault Refusal) : Option (Session × HostResult) :=
  match o with
  | .next t => some (⟨t, s.phase⟩, .none)
  | .fault _ => none
  | .refused _ => none

/-- `load` in the phase that allows it (rules R297, R323, decision D28). -/
def Session.runLoad (bytes : List Byte) (s : Session) : Session × HostResult :=
  match loadRom bytes s.machine with
  | .ok t => (⟨t, .loaded⟩, .ok)
  | .error e => (s, .err e)

/-- One host operation on a session: none when rule R297 does not allow it there. Before `init` only `init` is allowed. -/
def Session.run (op : HostOp) (s : Session) : Option (Session × HostResult) :=
  match op with
  | .init p => if s.phase = .created then some (⟨State.init p, .initialised⟩, .none) else none
  | .load bytes => if s.phase = .initialised then some (s.runLoad bytes) else none
  | .step => if s.phase = .created then none else s.runStep
  | .tick => if s.phase = .created then none else s.runQuiet (Sys2Proof.Machine.tick s.machine)
  | .setKeypad k => if s.phase = .created then none else s.runQuiet (Sys2Proof.Machine.setKeypad k s.machine)
  | .readDisplay => if s.phase = .created then none else some (s, .display (Sys2Proof.Machine.readDisplay s.machine))
  | .readStatus => if s.phase = .created then none else some (s, .status (Sys2Proof.Machine.readStatus s.machine))

/-- The operations of a list, one after the other: none as soon as one is not enabled. -/
def Session.runAll : List HostOp → Session → Option Session
  | [], s => some s
  | op :: ops, s =>
    match Session.run op s with
    | some (u, _) => Session.runAll ops u
    | none => none

/-- Up to n steps, "stopping early if a step returns Err" (rule R321). -/
def runSteps : Nat → State → Host.Outcome State Fault Refusal
  | 0, s => .next s
  | n + 1, s =>
    match step s with
    | .next t => if t.status = .running then runSteps n t else .next t
    | .fault r => .fault r
    | .refused r => .refused r

/-- The tick that ends a frame: not enabled once a step has returned Err, and then the frame ends without it (rules R286, R321). -/
def tickIfRunning (s : State) : State := if s.status = .running then s.ticked else s

/-- One frame of rule R321: `set_keypad(k)`, `step()` IPF times, `tick()`; `read_display()` then reads the state it leaves. -/
def runFrame (k : Vector Bool 16) (ipf : Nat) (s : State) : Host.Outcome State Fault Refusal :=
  match setKeypad k s with
  | .next t =>
    match runSteps ipf t with
    | .next u => .next (tickIfRunning u)
    | .fault r => .fault r
    | .refused r => .refused r
  | .fault r => .fault r
  | .refused r => .refused r

end Sys2Proof.Machine
end

