-- ==== Sys2Proof/Safety.lean ====
section
/-! DEFINITION. The terms the claims use: the invariant of the machine, when a step errs, what an instruction may write, and the closed form of a sprite. -/

namespace Sys2Proof.Machine

/-- The record e is the one rule R281 gives the halted state s: it holds the faulting word and its fetch address, which
opcode and pc still show (rule R288), and the condition its kind names holds. A step never leaves a loader's record. -/
def ErrorRecord.explains (e : ErrorRecord) (s : State) : Prop :=
  e.opcode = some s.opcode ∧ e.pc = some (s.pc - 2) ∧
    match e.kind with
    | .unknownOpcode => (∀ i, decodeWord s.opcode ≠ .ok i) ∧ e.info = none
    | .stackOverflow => (∃ nnn, decodeWord s.opcode = .ok (.call nnn)) ∧ s.sp.val = 16 ∧ e.info = none
    | .stackUnderflow => decodeWord s.opcode = .ok .ret ∧ s.sp.val = 0 ∧ e.info = none
    | .invalidKeyIndex => ∃ x, (decodeWord s.opcode = .ok (.skp x) ∨ decodeWord s.opcode = .ok (.sknp x)) ∧
        (s.reg x).toNat > 15 ∧ e.info = some (s.reg x).toNat
    | .romTooLarge => False
    | .romUnreadable => False

/-- The invariant of the machine: memory is in canonical form within the 4096 bytes (rules R32, R50), the generator is not
zero (rules R31, R152), the font lies in the reserved region (decision D19), and a halted session's record is the one its
state shows (rules R281, R288). That sp is at most 16 (rule R26) is in its type. -/
structure State.Inv (s : State) : Prop where
  memory : s.mem.wf = true
  generator : s.rng ≠ 0
  font : s.cfg.wf = true
  record : ∀ e, s.status = .halted e → e.explains s

/-- A step that executes its instruction and leaves the session running: the Ok of rule R106. -/
def State.StepsOk (s : State) : Prop := ∃ t, step s = .next t ∧ t.status = .running

/-- The error a step of the running state s ends with, read off rule R281's table: decode first, then the one condition the
decoded instruction has (rule R287). -/
def State.expectedError (s : State) : Option ErrorRecord :=
  let record (k : ErrorKind) (info : Option Nat) : ErrorRecord :=
    { kind := k, opcode := some s.fetchWord, pc := some s.pc, info := info }
  match decodeWord s.fetchWord with
  | .error _ => some (record .unknownOpcode none)
  | .ok (.call _) => if s.sp.val = 16 then some (record .stackOverflow none) else none
  | .ok .ret => if s.sp.val = 0 then some (record .stackUnderflow none) else none
  | .ok (.skp x) => if (s.reg x).toNat > 15 then some (record .invalidKeyIndex (some (s.reg x).toNat)) else none
  | .ok (.sknp x) => if (s.reg x).toNat > 15 then some (record .invalidKeyIndex (some (s.reg x).toNat)) else none
  | .ok _ => none

/-- The status an error, or none, leaves (rules R35, R106). -/
def statusAfter : Option ErrorRecord → Status
  | none => .running
  | some e => .halted e

/-- s with the session halted by the record e, and nothing else changed (rules R286, R288). -/
def State.haltedWith (s : State) (e : ErrorRecord) : State := { s with status := .halted e }

/-- The frame of an instruction that writes general registers only, and of these only the ones `written` names: every other
register, every byte of memory and every other component is as before. -/
structure WritesRegs (s t : State) (written : Reg → Prop) : Prop where
  rest : t = { s with V := t.V }
  kept : ∀ r, ¬written r → t.reg r = s.reg r
  bytes : ∀ a, t.memRead a = s.memRead a

/-- The frame of an instruction that writes pc only. -/
structure WritesPc (s t : State) : Prop where
  rest : t = { s with pc := t.pc }
  bytes : ∀ a, t.memRead a = s.memRead a

/-- The frame of a store of n bytes at I, I + 1, …: memory is the only component that changes, and every address that is not
one of the n addresses `dataAddr` gives, masked, reads as before. -/
structure StoresBytes (s t : State) (n : Nat) : Prop where
  rest : t = { s with mem := t.mem }
  bytes : ∀ a, (∀ i < n, maskAddr a ≠ maskAddr (s.dataAddr i)) → t.memRead a = s.memRead a

/-- What 8xy4 to 8xy7 and 8xyE leave (rule R121), for a result and a flag given as numbers: in two registers when x is not
15, and, when x = 15, in VF the result or the flag as VF_ORDER says. -/
structure FlagResult (s t : State) (x : Reg) (res f : Nat) : Prop where
  frame : WritesRegs s t fun r => r = x ∨ r = VF
  result : x ≠ VF → (t.reg x).toNat = res
  flag : x ≠ VF → (t.reg VF).toNat = f
  both : x = VF → (t.reg VF).toNat = match s.cfg.vfOrder with
    | .flagThenResult => res
    | .resultThenFlag => f

/-- The same state under another setting of VF_ORDER (rule R8). -/
def State.withVfOrder (s : State) (o : VfOrder) : State := { s with cfg := { vfOrder := o, fontBase := s.cfg.fontBase } }

/-- The sprite bit that Dxyn puts on cell (cx, cy), in closed form (rule R251): the start position wraps, the sprite does
not, row i is the byte at I + i, and column j is bit 7 - j of it. -/
def State.spriteOn (s : State) (x y : Reg) (n : Nibble) (cx cy : Nat) : Bool :=
  let x0 := (s.reg x).toNat % 64
  let y0 := (s.reg y).toNat % 32
  decide (x0 ≤ cx ∧ cx < x0 + 8 ∧ y0 ≤ cy ∧ cy < y0 + n.toNat) &&
    (s.memRead (s.I.toNat + (cy - y0))).getLsbD (7 - (cx - x0))

/-- A drawn sprite bit falls on a cell that is on: the collision of rule R251. -/
def State.Collides (s : State) (x y : Reg) (n : Nibble) : Prop :=
  ∃ cx cy, cx ≤ 63 ∧ cy ≤ 31 ∧ s.spriteOn x y n cx cy = true ∧ s.disp.cell cx cy = true

/-- Some sprite bit that is on is drawn, not clipped (rule R252). -/
def State.DrawsSomething (s : State) (x y : Reg) (n : Nibble) : Prop :=
  ∃ cx cy, cx ≤ 63 ∧ cy ≤ 31 ∧ s.spriteOn x y n cx cy = true

/-- What rule R297's table says of an operation that is enabled in the session s, that it leaves u and answers r: the state it
writes, its result, and the phase its "when allowed" column counts by (`init` is over, a load has succeeded, a step has been
taken). -/
def HostMove (op : HostOp) (s u : Session) (r : HostResult) : Prop :=
  match op with
  | .init p => u = ⟨State.init p, .initialised⟩ ∧ r = .none
  | .load bytes =>
    (bytes.length ≤ 3584 ∧ r = .ok ∧ ∃ t, loadRom bytes s.machine = .ok t ∧ u = ⟨t, .loaded⟩) ∨
    (bytes.length > 3584 ∧ u = s ∧
      r = .err { kind := .romTooLarge, opcode := none, pc := none, info := some bytes.length })
  | .step => ∃ t, Sys2Proof.Machine.step s.machine = .next t ∧ u = ⟨t, .executing⟩ ∧
      ((t.status = .running ∧ r = .ok) ∨ ∃ e, t.status = .halted e ∧ r = .err e)
  | .tick => ∃ t, Sys2Proof.Machine.tick s.machine = .next t ∧ u = ⟨t, s.phase⟩ ∧ r = .none
  | .setKeypad k => ∃ t, Sys2Proof.Machine.setKeypad k s.machine = .next t ∧ u = ⟨t, s.phase⟩ ∧ r = .none
  | .readDisplay => u = s ∧ r = .display (Sys2Proof.Machine.readDisplay s.machine)
  | .readStatus => u = s ∧ r = .status s.machine.status

/-- s runs to t in n steps, all of them from a running state: each of the first n states of `path` steps to the next one
(rules R100, R321). -/
def StepsAlong (path : Nat → State) (n : Nat) (s t : State) : Prop :=
  path 0 = s ∧ path n = t ∧ ∀ i < n, (path i).status = .running ∧ step (path i) = .next (path (i + 1))

/-- The words of rule R82, by the arithmetic of their nibbles. -/
def UnknownWord (w : Word) : Prop :=
  let p := w.toNat / 4096
  let kk := w.toNat % 256
  let n := w.toNat % 16
  (p = 0x0 ∧ w ≠ 0x00E0 ∧ w ≠ 0x00EE) ∨
  (p = 0x5 ∧ n ≠ 0) ∨
  (p = 0x8 ∧ n ∈ [0x8, 0x9, 0xA, 0xB, 0xC, 0xD, 0xF]) ∨
  (p = 0x9 ∧ n ≠ 0) ∨
  (p = 0xE ∧ kk ∉ [0x9E, 0xA1]) ∨
  (p = 0xF ∧ kk ∉ [0x07, 0x0A, 0x15, 0x18, 0x1E, 0x29, 0x33, 0x55, 0x65])

end Sys2Proof.Machine
end

