-- ==== Sys2Proof/Certificates/Slice0/Obligations.lean ====
section
/-! DEFINITION. The statements for the provers, each from a rule of spec/ or from sections of it; OBLIGATIONS.json lists them. -/

open Sys2Proof
open Sys2Proof.Machine

/-- R320: what `init` leaves, for every seed, font and configuration whose font lies in the reserved region. That the
parameters of R8 are then in `cfg` is the model's own choice, not the rule's (log entry 3). -/
def Obligations.InitGivesTheResetValues : Prop :=
  ∀ p : InitParams, p.config.wf = true →
    (∀ r, (State.init p).reg r = 0) ∧ (State.init p).I = 0 ∧ (State.init p).DT = 0 ∧ (State.init p).ST = 0 ∧
    (State.init p).pc = 0x200 ∧ (State.init p).sp.val = 0 ∧ (∀ k : Fin 16, (State.init p).stack.get k = 0) ∧
    (∀ x y, (State.init p).disp.cell x y = false) ∧ (∀ k, (State.init p).keyDown k = false) ∧
    (State.init p).opcode = 0 ∧ (State.init p).rng = (if p.seed = 0 then 1 else p.seed) ∧
    (State.init p).status = .running ∧ (State.init p).cfg = p.config ∧
    (∀ b : Fin 80, (State.init p).memRead (p.config.fontBase.toNat + b.val) = p.glyphs.get b) ∧
    (∀ a < 4096, (a < p.config.fontBase.toNat ∨ p.config.fontBase.toNat + 80 ≤ a) → (State.init p).memRead a = 0)

/-- The reset state with the default parameters: the default font base and order are the spec's, the font bytes (log entry 6)
and the seed 1 (log entry 7) are named choices. -/
def Obligations.ResetUsesTheDefaultParameters : Prop :=
  State.reset = State.init defaultParams ∧ State.reset.pc = 0x200 ∧ State.reset.cfg.fontBase = 0x050 ∧
  State.reset.cfg.vfOrder = .flagThenResult ∧ State.reset.rng = 1 ∧
  State.reset.memReadBlock 0x050 5 = [0xF0, 0x90, 0x90, 0x90, 0xF0] ∧
  State.reset.memReadBlock 0x09B 5 = [0xF0, 0x80, 0xF0, 0x80, 0x80] ∧
  State.reset.memRead 0x04F = 0 ∧ State.reset.memRead 0x0A0 = 0 ∧ State.reset.memRead 0x200 = 0

/-- The reset state meets the invariant. -/
def Obligations.ResetMeetsTheInvariant : Prop := State.reset.Inv

/-- Every initial state meets the invariant, whatever the seed and the font. -/
def Obligations.InitMeetsTheInvariant : Prop := ∀ p : InitParams, p.config.wf = true → (State.init p).Inv

/-- Every step keeps the invariant, from every state that meets it. -/
def Obligations.StepKeepsTheInvariant : Prop := ∀ s t, s.Inv → step s = .next t → t.Inv

/-- Every host operation that rule R297 enables keeps the invariant. -/
def Obligations.HostOperationsKeepTheInvariant : Prop :=
  ∀ (op : HostOp) (s u : Session) (r : HostResult), (∀ p, op = .init p → p.config.wf = true) → s.machine.Inv →
    Session.run op s = some (u, r) → u.machine.Inv

/-- Decoding the encoding of an instruction gives it back, from its word, its bytes and its table word. -/
def Obligations.DecodeUndoesEncode : Prop :=
  ∀ (i : Instr) (rest : List Byte), i.wellFormed = true →
    decodeWord (encode i) = .ok i ∧ decodeBytes (encodeBytes i ++ rest) = .ok (i, rest) ∧
    decodeTableWord 16 (encode i).toNat = some i

/-- Encoding what a word decodes to gives the word: no bit of a legal word is dropped. -/
def Obligations.EncodeUndoesDecode : Prop := ∀ (w : Word) (i : Instr), decodeWord w = .ok i → encode i = w

/-- The decoder and the opcode table agree: a decoded word is matched by the row of its instruction and by no other, and an
Unknown word by none. -/
def Obligations.DecodeAgreesWithTheOpcodeTable : Prop :=
  ∀ w : Word,
    (∀ i, decodeWord w = .ok i → (opcodeTable.filter fun r => r.fitsWord w).map OpcodeRow.mnemonic = [i.mnemonic]) ∧
    (∀ e, decodeWord w = .error e → (opcodeTable.filter fun r => r.fitsWord w) = [])

/-- The Unknown words are the ones R82 lists (R83, R84, R85), and no others. -/
def Obligations.UnknownWordsAreTheListedOnes : Prop :=
  ∀ w : Word, decodeWord w = .error (.unknown w) ↔ UnknownWord w

/-- Words written out from the patterns of R80, one or more a format. -/
def Obligations.WordsDecodeAsTheirPatternsSay : Prop :=
  decodeWord 0x00E0 = .ok .cls ∧ decodeWord 0x00EE = .ok .ret ∧ decodeWord 0x1234 = .ok (.jp 0x234) ∧
  decodeWord 0x2345 = .ok (.call 0x345) ∧ decodeWord 0x3A2F = .ok (.seImm 0xA 0x2F) ∧
  decodeWord 0x5120 = .ok (.seReg 1 2) ∧ decodeWord 0x8AB7 = .ok (.subn 0xA 0xB) ∧
  decodeWord 0x8FE6 = .ok (.shr 0xF 0xE) ∧ decodeWord 0xD12F = .ok (.drw 1 2 0xF) ∧
  decodeWord 0xE4A1 = .ok (.sknp 4) ∧ decodeWord 0xF265 = .ok (.loadRegs 2) ∧
  decodeWord 0x5001 = .error (.unknown 0x5001) ∧ decodeWord 0x0000 = .error (.unknown 0x0000)

/-- The assembler forms of R80 and R87 name the instructions: assembling an instruction's form gives it back, so no two
instructions share a form, and SHR and SHL each take one register or two. The form type is the model's (log entry 22), and so
is that one register stands for y = 0 (log entry 20), which R131's and R132's example words and program P3 have. -/
def Obligations.AssemblyNamesTheInstruction : Prop :=
  (∀ i : Instr, i.assembly.assemble = some i) ∧ (∀ i j : Instr, i.assembly = j.assembly → i = j) ∧
  ∀ x y : Reg,
    (AsmForm.mk "SHR" [.reg x]).assemble = some (.shr x 0) ∧
    (AsmForm.mk "SHR" [.reg x, .reg y]).assemble = some (.shr x y) ∧
    (AsmForm.mk "SHL" [.reg x]).assemble = some (.shl x 0) ∧
    (AsmForm.mk "SHL" [.reg x, .reg y]).assemble = some (.shl x y)

/-- R105: a step of a running session fetches, advances pc, decodes, and runs the decoded instruction or raises
UnknownOpcode with the word and its fetch address. -/
def Obligations.StepRunsTheDecodedInstruction : Prop :=
  ∀ s : State, s.status = .running →
    (∀ i, decodeWord s.fetchWord = .ok i → step s = exec i { s with opcode := s.fetchWord, pc := s.pc + 2 }) ∧
    (∀ e, decodeWord s.fetchWord = .error e →
      step s = .next
        ({ s with opcode := s.fetchWord, pc := s.pc + 2 }.haltedWith ⟨.unknownOpcode, some s.fetchWord, some s.pc, none⟩))

/-- R101: the fetched word is the two bytes at pc and pc + 1, the first one high, each address masked to 12 bits. -/
def Obligations.FetchIsBigEndianAndWraps : Prop :=
  ∀ s : State, s.fetchWord.toNat =
    256 * (s.mem.read (s.pc.toNat % 4096)).toNat + (s.mem.read ((s.pc.toNat + 1) % 4096)).toNat

/-- A word placed at pc is the one the next step runs. -/
def Obligations.PlacedWordIsRunNext : Prop :=
  ∀ (s : State) (i : Instr), s.mem.wf = true →
    (s.withFetchWord 16 (encode i).toNat).fetchWord = encode i ∧
    step (s.withFetchWord 16 (encode i).toNat) = exec i (s.withFetchWord 16 (encode i).toNat).fetched

/-- R286: in a halted session no step, no tick and no keypad write is enabled, and nothing is executed. -/
def Obligations.HaltedSessionHasNoSuccessor : Prop :=
  ∀ (s : State) (e : ErrorRecord) (k : Vector Bool 16), s.status = .halted e →
    step s = .fault (.halted e) ∧ tick s = .fault (.halted e) ∧ setKeypad k s = .fault (.halted e)

/-- A step of a running session always answers a next state, Ok or Err: none is refused and none blocks. The error is the
one the table of R281 names, decode first. -/
def Obligations.RunningStepAnswersWithTheTablesError : Prop :=
  ∀ s : State, s.status = .running → ∃ t, step s = .next t ∧ t.status = statusAfter s.expectedError

/-- R288: after an error the state is the one before the step, but for opcode, pc and status. -/
def Obligations.ErrorsArePrecise : Prop :=
  ∀ (s t : State) (e : ErrorRecord), s.status = .running → step s = .next t → t.status = .halted e →
    t = { s with opcode := s.fetchWord, pc := s.pc + 2, status := .halted e } ∧
    e.opcode = some s.fetchWord ∧ e.pc = some s.pc

/-- Which instruction may change which component, over all 34 (R36, R109): the written-by columns of the spec. -/
def Obligations.EachComponentHasItsOnlyWriters : Prop :=
  ∀ (i : Instr) (s t : State), exec i s = .next t →
    t.opcode = s.opcode ∧ t.key = s.key ∧ t.cfg = s.cfg ∧
    (t.rng ≠ s.rng → ∃ x kk, i = .rnd x kk) ∧
    (t.I ≠ s.I → (∃ nnn, i = .ldI nnn) ∨ (∃ x, i = .addI x) ∨ ∃ x, i = .ldF x) ∧
    (t.sp ≠ s.sp → (∃ nnn, i = .call nnn) ∨ i = .ret) ∧
    (t.stack ≠ s.stack → ∃ nnn, i = .call nnn) ∧
    (t.DT ≠ s.DT → ∃ x, i = .ldDTVx x) ∧
    (t.ST ≠ s.ST → ∃ x, i = .ldSTVx x) ∧
    (t.mem ≠ s.mem → (∃ x, i = .ldB x) ∨ ∃ x, i = .storeRegs x) ∧
    (t.disp ≠ s.disp → i = .cls ∨ ∃ x y n, i = .drw x y n) ∧
    (t.V ≠ s.V → (∃ x kk, i = .ldImm x kk ∨ i = .addImm x kk ∨ i = .rnd x kk) ∨
      (∃ x y, i = .ldReg x y ∨ i = .orReg x y ∨ i = .andReg x y ∨ i = .xorReg x y ∨ i = .addReg x y ∨ i = .subReg x y ∨
        i = .shr x y ∨ i = .subn x y ∨ i = .shl x y) ∨
      (∃ x, i = .ldVxDT x ∨ i = .ldVxK x ∨ i = .loadRegs x) ∨ ∃ x y n, i = .drw x y n) ∧
    (t.status ≠ s.status → (∃ nnn, i = .call nnn) ∨ i = .ret ∨ (∃ x, i = .skp x) ∨ ∃ x, i = .sknp x) ∧
    (t.pc ≠ s.pc → i = .ret ∨ (∃ nnn, i = .jp nnn ∨ i = .call nnn ∨ i = .jpV0 nnn) ∨
      (∃ x kk, i = .seImm x kk ∨ i = .sneImm x kk) ∨ (∃ x y, i = .seReg x y ∨ i = .sneReg x y) ∨
      ∃ x, i = .skp x ∨ i = .sknp x ∨ i = .ldVxK x)

/-- R122, R123: the immediate load and the immediate add, which has no flag. -/
def Obligations.ImmediateLoadAndAdd : Prop :=
  ∀ (x : Reg) (kk : Byte) (s : State),
    (∃ t, exec (.ldImm x kk) s = .next t ∧ t.reg x = kk ∧ WritesRegs s t (· = x)) ∧
    (∃ t, exec (.addImm x kk) s = .next t ∧ (t.reg x).toNat = ((s.reg x).toNat + kk.toNat) % 256 ∧ WritesRegs s t (· = x))

/-- R124 to R127: copy, OR, AND and XOR write Vx bit by bit and nothing else; VF is not reset. -/
def Obligations.RegisterLogic : Prop :=
  ∀ (x y : Reg) (s : State),
    (∃ t, exec (.ldReg x y) s = .next t ∧ t.reg x = s.reg y ∧ WritesRegs s t (· = x)) ∧
    (∃ t, exec (.orReg x y) s = .next t ∧
      (∀ b < 8, (t.reg x).getLsbD b = ((s.reg x).getLsbD b || (s.reg y).getLsbD b)) ∧ WritesRegs s t (· = x)) ∧
    (∃ t, exec (.andReg x y) s = .next t ∧
      (∀ b < 8, (t.reg x).getLsbD b = ((s.reg x).getLsbD b && (s.reg y).getLsbD b)) ∧ WritesRegs s t (· = x)) ∧
    (∃ t, exec (.xorReg x y) s = .next t ∧
      (∀ b < 8, (t.reg x).getLsbD b = ((s.reg x).getLsbD b ^^ (s.reg y).getLsbD b)) ∧ WritesRegs s t (· = x))

/-- R128: ADD with its carry, for every x and y, x = y and x = 15 included, and both settings of VF_ORDER (R121). -/
def Obligations.AddSetsCarry : Prop :=
  ∀ (x y : Reg) (s : State), ∃ t, exec (.addReg x y) s = .next t ∧
    FlagResult s t x (((s.reg x).toNat + (s.reg y).toNat) % 256)
      (if (s.reg x).toNat + (s.reg y).toNat > 255 then 1 else 0)

/-- R129: SUB wraps, and its flag is strictly greater. -/
def Obligations.SubSetsStrictNoBorrow : Prop :=
  ∀ (x y : Reg) (s : State), ∃ t, exec (.subReg x y) s = .next t ∧
    FlagResult s t x ((((s.reg x).toNat : Int) - ((s.reg y).toNat : Int)) % 256).toNat
      (if (s.reg x).toNat > (s.reg y).toNat then 1 else 0)

/-- R130: SUBN is Vy - Vx. -/
def Obligations.SubnSetsStrictNoBorrow : Prop :=
  ∀ (x y : Reg) (s : State), ∃ t, exec (.subn x y) s = .next t ∧
    FlagResult s t x ((((s.reg y).toNat : Int) - ((s.reg x).toNat : Int)) % 256).toNat
      (if (s.reg y).toNat > (s.reg x).toNat then 1 else 0)

/-- R131: SHR moves bit 0 to the flag; y is ignored. -/
def Obligations.ShiftRightMovesBitZeroOut : Prop :=
  ∀ (x y : Reg) (s : State), ∃ t, exec (.shr x y) s = .next t ∧ FlagResult s t x ((s.reg x).toNat / 2) ((s.reg x).toNat % 2)

/-- R132: SHL moves bit 7 to the flag; y is ignored. -/
def Obligations.ShiftLeftMovesBitSevenOut : Prop :=
  ∀ (x y : Reg) (s : State), ∃ t, exec (.shl x y) s = .next t ∧
    FlagResult s t x ((s.reg x).toNat * 2 % 256) ((s.reg x).toNat / 128)

/-- R121 at x = 15: under FLAG_THEN_RESULT the five instructions leave the result in VF, under RESULT_THEN_FLAG the flag. The
two runs start in the same state but for the parameter. -/
def Obligations.VfOrderDecidesWhatVfKeeps : Prop :=
  ∀ (y : Reg) (s : State) (i : Instr), i ∈ [.addReg VF y, .subReg VF y, .shr VF y, .subn VF y, .shl VF y] →
    ∃ t u, exec i (s.withVfOrder .flagThenResult) = .next t ∧ exec i (s.withVfOrder .resultThenFlag) = .next u ∧
      t.reg VF = (match i with
        | .addReg _ _ => s.reg VF + s.reg y
        | .subReg _ _ => s.reg VF - s.reg y
        | .shr _ _ => s.reg VF >>> 1
        | .subn _ _ => s.reg y - s.reg VF
        | _ => s.reg VF <<< 1) ∧
      (u.reg VF = 0 ∨ u.reg VF = 1) ∧
      (u.reg VF = 1 ↔ match i with
        | .addReg _ _ => (s.reg VF).toNat + (s.reg y).toNat ≥ 256
        | .subReg _ _ => (s.reg y).toNat < (s.reg VF).toNat
        | .shr _ _ => (s.reg VF).getLsbD 0 = true
        | .subn _ _ => (s.reg VF).toNat < (s.reg y).toNat
        | _ => (s.reg VF).getLsbD 7 = true)

/-- R133: RND advances the generator once, whatever kk is, and masks its low byte (R151, R152). -/
def Obligations.RandomAdvancesTheGeneratorOnce : Prop :=
  ∀ (x : Reg) (kk : Byte) (s : State), ∃ t a b, exec (.rnd x kk) s = .next t ∧
    a = s.rng ^^^ (s.rng <<< 13) ∧ b = a ^^^ (a >>> 17) ∧ t.rng = b ^^^ (b <<< 5) ∧
    t.reg x = (t.rng.setWidth 8 &&& kk) ∧ (∀ r, r ≠ x → t.reg r = s.reg r) ∧
    (∀ m, t.memRead m = s.memRead m) ∧ t = { s with V := t.V, rng := t.rng }

/-- R152: the advance is invertible, so a state that is not zero never becomes zero. -/
def Obligations.GeneratorAdvanceIsInjective : Prop :=
  (∀ a b : RngState, rngAdvance a = rngAdvance b → a = b) ∧ ∀ a : RngState, a ≠ 0 → rngAdvance a ≠ 0

/-- R152's bytes from 1, and rule R150's coercion of a zero seed. -/
def Obligations.GeneratorFirstBytes : Prop :=
  ((List.range 6).map fun n => rngByte (Nat.iterate rngAdvance (n + 1) 1)) = [0x21, 0x01, 0xC5, 0x4F, 0xD1, 0xD0] ∧
  seedRng 0 = 1 ∧ ∀ seed, seed ≠ 0 → seedRng seed = seed

/-- R163, R168: the jumps write pc only; Bnnn's target is not masked. -/
def Obligations.JumpsWriteTheTarget : Prop :=
  ∀ (nnn : Addr) (s : State),
    (∃ t, exec (.jp nnn) s = .next t ∧ t.pc.toNat = nnn.toNat ∧ WritesPc s t) ∧
    (∃ t, exec (.jpV0 nnn) s = .next t ∧ t.pc.toNat = nnn.toNat + (s.reg 0).toNat ∧ WritesPc s t)

/-- R162: CALL pushes the advanced pc below a full stack, and raises StackOverflow before any write at sp = 16. -/
def Obligations.CallPushesOrOverflows : Prop :=
  ∀ (nnn : Addr) (s : State),
    (s.sp.val < 16 → ∃ t, exec (.call nnn) s = .next t ∧ t.pc.toNat = nnn.toNat ∧ t.sp.val = s.sp.val + 1 ∧
      (∀ k : Fin 16, t.stack.get k = if k.val = s.sp.val then s.pc else s.stack.get k) ∧
      (∀ r, t.reg r = s.reg r) ∧ (∀ a, t.memRead a = s.memRead a) ∧
      t = { s with pc := t.pc, sp := t.sp, stack := t.stack }) ∧
    (s.sp.val = 16 → exec (.call nnn) s = .next
      (s.haltedWith ⟨.stackOverflow, some s.opcode, some (s.pc - 2), none⟩))

/-- R161: RET pops the full 16-bit pc and leaves the entry, and raises StackUnderflow before any write at sp = 0. -/
def Obligations.ReturnPopsOrUnderflows : Prop :=
  ∀ s : State,
    (∀ k : Fin 16, s.sp.val = k.val + 1 → ∃ t, exec .ret s = .next t ∧ t.pc = s.stack.get k ∧ t.sp.val = k.val ∧
      (∀ r, t.reg r = s.reg r) ∧ (∀ a, t.memRead a = s.memRead a) ∧ t = { s with pc := t.pc, sp := t.sp }) ∧
    (s.sp.val = 0 → exec .ret s = .next
      (s.haltedWith ⟨.stackUnderflow, some s.opcode, some (s.pc - 2), none⟩))

/-- The round trip of R162: a RET fetched after a CALL, from any address, gives back the pc after the CALL and the depth. -/
def Obligations.CallThenReturnRoundTrip : Prop :=
  ∀ (nnn : Addr) (s : State) (w q : Word), s.sp.val < 16 →
    ∃ t u, exec (.call nnn) s = .next t ∧ exec .ret { t with opcode := w, pc := q } = .next u ∧
      u = { s with stack := u.stack, opcode := w } ∧ ∀ k : Fin 16, k.val ≠ s.sp.val → u.stack.get k = s.stack.get k

/-- R160, R164 to R167: a taken skip adds 2 to the advanced pc, one not taken leaves it, and nothing else changes. -/
def Obligations.SkipsAddTwoWhenTaken : Prop :=
  ∀ (x y : Reg) (kk : Byte) (s : State),
    (∃ t, exec (.seImm x kk) s = .next t ∧ WritesPc s t ∧
      t.pc.toNat = if s.reg x = kk then (s.pc.toNat + 2) % 65536 else s.pc.toNat) ∧
    (∃ t, exec (.sneImm x kk) s = .next t ∧ WritesPc s t ∧
      t.pc.toNat = if s.reg x ≠ kk then (s.pc.toNat + 2) % 65536 else s.pc.toNat) ∧
    (∃ t, exec (.seReg x y) s = .next t ∧ WritesPc s t ∧
      t.pc.toNat = if s.reg x = s.reg y then (s.pc.toNat + 2) % 65536 else s.pc.toNat) ∧
    (∃ t, exec (.sneReg x y) s = .next t ∧ WritesPc s t ∧
      t.pc.toNat = if s.reg x ≠ s.reg y then (s.pc.toNat + 2) % 65536 else s.pc.toNat)

/-- R190, R191, R192: the three writers of I. Fx1E wraps at 16 bits and writes no flag, Fx29 takes every value of Vx. -/
def Obligations.IndexRegisterWrites : Prop :=
  ∀ (nnn : Addr) (x : Reg) (s : State),
    (∃ t, exec (.ldI nnn) s = .next t ∧ t.I.toNat = nnn.toNat ∧ t = { s with I := t.I } ∧
      ∀ a, t.memRead a = s.memRead a) ∧
    (∃ t, exec (.addI x) s = .next t ∧ t.I.toNat = (s.I.toNat + (s.reg x).toNat) % 65536 ∧ t = { s with I := t.I } ∧
      ∀ a, t.memRead a = s.memRead a) ∧
    (∃ t, exec (.ldF x) s = .next t ∧ t.I.toNat = s.cfg.fontBase.toNat + 5 * (s.reg x).toNat ∧ t = { s with I := t.I } ∧
      ∀ a, t.memRead a = s.memRead a)

/-- R193: the three digits at I, I + 1 and I + 2, hundreds first, and nothing else changes. -/
def Obligations.BcdStoresThreeDigits : Prop :=
  ∀ (x : Reg) (s : State), s.mem.wf = true → ∃ t, exec (.ldB x) s = .next t ∧
    (t.memRead s.I.toNat).toNat = (s.reg x).toNat / 100 ∧
    (t.memRead (s.I.toNat + 1)).toNat = (s.reg x).toNat / 10 % 10 ∧
    (t.memRead (s.I.toNat + 2)).toNat = (s.reg x).toNat % 10 ∧ StoresBytes s t 3

/-- R194: V0 to Vx inclusive at I, I + 1, …, past 0xFFF at 0x000 on, and nothing else changes. -/
def Obligations.StoreRegistersWritesTheBlock : Prop :=
  ∀ (x : Reg) (s : State), s.mem.wf = true → ∃ t, exec (.storeRegs x) s = .next t ∧
    (∀ i : Reg, i ≤ x → t.memRead (s.I.toNat + i.val) = s.reg i) ∧ StoresBytes s t (x.val + 1)

/-- R195: V0 to Vx inclusive from I, I + 1, …, and nothing else changes. -/
def Obligations.LoadRegistersReadsTheBlock : Prop :=
  ∀ (x : Reg) (s : State), ∃ t, exec (.loadRegs x) s = .next t ∧
    (∀ i : Reg, i ≤ x → t.reg i = s.memRead (s.I.toNat + i.val)) ∧ WritesRegs s t (· ≤ x)

/-- R195's "inverse of Fx55": what Fx55 x stored, Fx65 x loads back into any registers. -/
def Obligations.LoadUndoesStore : Prop :=
  ∀ (x : Reg) (s : State) (v : Vector Byte 16), s.mem.wf = true →
    ∃ t u, exec (.storeRegs x) s = .next t ∧ exec (.loadRegs x) { t with V := v } = .next u ∧
      u = { t with V := u.V } ∧ ∀ i : Reg, u.reg i = if i ≤ x then s.reg i else v.get i

/-- R60, R332: a store of Fx33 or Fx55 is seen by the next fetch: a byte it stored where pc points is the high byte of the
next instruction word, and one it stored at the address after is the low byte. -/
def Obligations.StoredBytesAreFetched : Prop :=
  ∀ (x : Reg) (s : State), s.mem.wf = true →
    (∃ t, exec (.storeRegs x) s = .next t ∧ ∀ i : Reg, i ≤ x →
      (maskAddr s.pc.toNat = maskAddr (s.dataAddr i.val) → highByte t.fetchWord = s.reg i) ∧
      (maskAddr (s.pc.toNat + 1) = maskAddr (s.dataAddr i.val) → lowByte t.fetchWord = s.reg i)) ∧
    (∃ t, exec (.ldB x) s = .next t ∧ ∀ k : Fin 3,
      (maskAddr s.pc.toNat = maskAddr (s.dataAddr k.val) →
        (highByte t.fetchWord).toNat = (s.reg x).toNat / 10 ^ (2 - k.val) % 10) ∧
      (maskAddr (s.pc.toNat + 1) = maskAddr (s.dataAddr k.val) →
        (lowByte t.fetchWord).toNat = (s.reg x).toNat / 10 ^ (2 - k.val) % 10))

/-- R220, R221: the key skips test the key Vx names, and raise InvalidKeyIndex before any write when Vx > 15. -/
def Obligations.KeySkipsTestTheKeyOrFail : Prop :=
  ∀ (x : Reg) (s : State),
    (∀ k : Fin 16, (s.reg x).toNat = k.val →
      (∃ t, exec (.skp x) s = .next t ∧ WritesPc s t ∧
        t.pc.toNat = if s.key.get k = true then (s.pc.toNat + 2) % 65536 else s.pc.toNat) ∧
      (∃ t, exec (.sknp x) s = .next t ∧ WritesPc s t ∧
        t.pc.toNat = if s.key.get k = false then (s.pc.toNat + 2) % 65536 else s.pc.toNat)) ∧
    ((s.reg x).toNat > 15 → ∀ i ∈ [Instr.skp x, Instr.sknp x], exec i s = .next
      (s.haltedWith ⟨.invalidKeyIndex, some s.opcode, some (s.pc - 2), some (s.reg x).toNat⟩))

/-- R222, R223, R224: direct copies between Vx and the timers. -/
def Obligations.TimerTransfersCopy : Prop :=
  ∀ (x : Reg) (s : State),
    (∃ t, exec (.ldVxDT x) s = .next t ∧ t.reg x = s.DT ∧ WritesRegs s t (· = x)) ∧
    (∃ t, exec (.ldDTVx x) s = .next t ∧ t.DT = s.reg x ∧ t = { s with DT := t.DT } ∧ ∀ a, t.memRead a = s.memRead a) ∧
    (∃ t, exec (.ldSTVx x) s = .next t ∧ t.ST = s.reg x ∧ t = { s with ST := t.ST } ∧ ∀ a, t.memRead a = s.memRead a)

/-- R225: the lowest pressed key goes to Vx; with none pressed pc goes back by 2 and nothing else changes. -/
def Obligations.WaitForKeyTakesTheLowestKey : Prop :=
  ∀ (x : Reg) (s : State),
    (∀ k : Fin 16, s.key.get k = true → (∀ j < k, s.key.get j = false) →
      ∃ t, exec (.ldVxK x) s = .next t ∧ (t.reg x).toNat = k.val ∧ WritesRegs s t (· = x)) ∧
    ((∀ k, s.key.get k = false) → exec (.ldVxK x) s = .next { s with pc := s.pc - 2 })

/-- R225's spin: a step that finds no key returns Ok and leaves the state as it was, but for opcode. -/
def Obligations.WaitForKeySpins : Prop :=
  ∀ (x : Reg) (s : State), s.status = .running → s.fetchWord = encode (.ldVxK x) → (∀ k, s.key.get k = false) →
    step s = .next { s with opcode := encode (.ldVxK x) }

/-- R230: a tick takes one off each timer that is above 0; from values v, after n ticks the timers hold max(v - n, 0), and
nothing else has changed. In a halted session no tick is enabled; that it then answers the fault `halted` is the model's
choice (log entry 2). -/
def Obligations.TicksCountDownToZero : Prop :=
  (∀ s : State, s.status = .running →
    tick s = .next { s with DT := if s.DT = 0 then 0 else s.DT - 1, ST := if s.ST = 0 then 0 else s.ST - 1 }) ∧
  (∀ (s : State) (e : ErrorRecord), s.status = .halted e → tick s = .fault (.halted e)) ∧
  ∀ (n : Nat) (s : State), s.status = .running → ∃ t, runTicks n s = .next t ∧
    t.DT.toNat = s.DT.toNat - n ∧ t.ST.toNat = s.ST.toNat - n ∧ t = { s with DT := t.DT, ST := t.ST }

/-- R296: a keypad write replaces all 16 bits and nothing else. -/
def Obligations.KeypadWriteReplacesAllKeys : Prop :=
  ∀ (k : Vector Bool 16) (s : State), s.status = .running → ∃ t, setKeypad k s = .next t ∧
    (∀ j : Fin 16, t.keyDown j = k.get j) ∧ t = { s with key := t.key }

/-- R323: a ROM of at most 3584 bytes lands at 0x200 on, verbatim; a longer one answers RomTooLarge, changes
nothing, and leaves the host where it may load again. -/
def Obligations.RomLoadCopiesOrRefuses : Prop :=
  ∀ (bytes : List Byte) (s : State), s.mem.wf = true →
    (bytes.length ≤ 3584 → ∃ t, loadRom bytes s = .ok t ∧ t = { s with mem := t.mem } ∧
      (∀ i : Fin bytes.length, t.memRead (0x200 + i.val) = bytes.get i) ∧
      (∀ a < 4096, (a < 0x200 ∨ 0x200 + bytes.length ≤ a) → t.memRead a = s.memRead a)) ∧
    (bytes.length > 3584 →
      loadRom bytes s = .error { kind := .romTooLarge, opcode := none, pc := none, info := some bytes.length } ∧
      Session.run (.load bytes) ⟨s, .initialised⟩ = some (⟨s, .initialised⟩,
        .err { kind := .romTooLarge, opcode := none, pc := none, info := some bytes.length }))

/-- R250: every cell off, and nothing else changes. -/
def Obligations.ClearTurnsEveryCellOff : Prop :=
  ∀ s : State, ∃ t, exec .cls s = .next t ∧ (∀ x y, t.disp.cell x y = false) ∧ t = { s with disp := t.disp } ∧
    ∀ a, t.memRead a = s.memRead a

/-- R251 in closed form: every cell of the display is XORed with the sprite bit that falls on it, clipped at the edges; VF is
1 when a drawn bit met a cell that was on and 0 otherwise; VF and the display are all that changes. -/
def Obligations.DrawXorsTheSpriteAndReportsCollision : Prop :=
  ∀ (x y : Reg) (n : Nibble) (s : State), ∃ t, exec (.drw x y n) s = .next t ∧
    (∀ cx cy, cx ≤ 63 → cy ≤ 31 → t.disp.cell cx cy = (s.disp.cell cx cy ^^ s.spriteOn x y n cx cy)) ∧
    (s.Collides x y n → t.reg VF = 1) ∧ (¬s.Collides x y n → t.reg VF = 0) ∧
    (∀ r, r ≠ VF → t.reg r = s.reg r) ∧ (∀ a, t.memRead a = s.memRead a) ∧ t = { s with V := t.V, disp := t.disp }

/-- R252's self-inverse, as R251 gives it: the same sprite drawn twice at the same position restores the display. The second
draw collides exactly when some on bit of the sprite is drawn on a cell that was off before the first; on a blank display
that is R252's "at least one of the sprite's on bits was drawn" (log entry 16). -/
def Obligations.DrawingTwiceRestoresTheDisplay : Prop :=
  ∀ (x y : Reg) (n : Nibble) (s t u : State), exec (.drw x y n) s = .next t →
    t.startColumn x = s.startColumn x → t.startRow y = s.startRow y → exec (.drw x y n) t = .next u →
    u.disp = s.disp ∧ (u.reg VF = 0 ∨ u.reg VF = 1) ∧
    (u.reg VF = 1 ↔ ∃ cx cy, cx ≤ 63 ∧ cy ≤ 31 ∧ s.spriteOn x y n cx cy = true ∧ s.disp.cell cx cy = false) ∧
    ((∀ cx cy, s.disp.cell cx cy = false) → (u.reg VF = 1 ↔ s.DrawsSomething x y n))

/-- R252's "exactly when" does not follow from R251 on every display: where the cells under the sprite are on, the first draw
turns them off and the second meets none that is on (log entry 16). -/
def Obligations.SecondDrawNeedNotCollide : Prop :=
  ∃ (x y : Reg) (n : Nibble) (s t u : State), s.Inv ∧ exec (.drw x y n) s = .next t ∧ exec (.drw x y n) t = .next u ∧
    t.startColumn x = s.startColumn x ∧ t.startRow y = s.startRow y ∧ s.DrawsSomething x y n ∧ u.reg VF = 0

/-- R253: the flat, colour and packed forms the host reads, each by its layout and its pitch, and that a read changes nothing. -/
def Obligations.DisplayExportLayout : Prop :=
  ∀ (s : State) (x y : Nat), x ≤ 63 → y ≤ 31 →
    (readDisplay s).length = 2048 ∧ (readDisplay s)[y * 64 + x]? = some (s.disp.cell x y) ∧
    s.disp.colours[y * 64 + x]? = some (if s.disp.cell x y = true then 0xFFFFFFFF else 0x00000000) ∧
    s.disp.packed.length = 256 ∧
    (s.disp.packed[y * 8 + x / 8]?).map (fun b => b.getLsbD (7 - x % 8)) = some (s.disp.cell x y) ∧
    Display.colourPitch = 64 * 4 ∧ Display.packedPitch = 8 ∧
    ∀ ph, ph ≠ .created → Session.run .readDisplay ⟨s, ph⟩ = some (⟨s, ph⟩, .display (readDisplay s))

/-- R297's table: when each of the seven operations is allowed, and what each one then writes and answers, with the phase it
leaves (log entry 12); nothing leads back to before `init`. That before `init` only `init` is allowed is log entry 17's. -/
def Obligations.HostOperationsAreEnabledByTheTable : Prop :=
  (∀ (op : HostOp) (s u : Session) (r : HostResult), Session.run op s = some (u, r) →
    HostMove op s u r ∧ u.phase ≠ .created) ∧
  ∀ (s : Session) (p : InitParams) (bytes : List Byte) (k : Vector Bool 16),
    ((Session.run (.init p) s).isSome = true ↔ s.phase = .created) ∧
    ((Session.run (.load bytes) s).isSome = true ↔ s.phase = .initialised) ∧
    ((Session.run .step s).isSome = true ↔ s.phase ≠ .created ∧ s.machine.status = .running) ∧
    ((Session.run .tick s).isSome = true ↔ s.phase ≠ .created ∧ s.machine.status = .running) ∧
    ((Session.run (.setKeypad k) s).isSome = true ↔ s.phase ≠ .created ∧ s.machine.status = .running) ∧
    ((Session.run .readDisplay s).isSome = true ↔ s.phase ≠ .created) ∧
    ((Session.run .readStatus s).isSome = true ↔ s.phase ≠ .created)

/-- R321, R334: a frame of a running session always answers. It takes its steps one after the other from the state with the
new keypad, as many as asked or up to the first that returns Err, with the keypad and the parameters fixed; it then ticks once
if it is still running, and ends without a tick if not (log entry 18). -/
def Obligations.FrameHoldsTheKeypadFixed : Prop :=
  ∀ (k : Vector Bool 16) (ipf : Nat) (s : State), s.status = .running →
    ∃ u t n path, runFrame k ipf s = .next u ∧ runSteps ipf { s with key := k } = .next t ∧
      StepsAlong path n { s with key := k } t ∧ n ≤ ipf ∧ (n < ipf → t.status ≠ .running) ∧
      t.key = k ∧ u.key = k ∧ u.cfg = s.cfg ∧
      (t.status = .running → u.DT.toNat = t.DT.toNat - 1 ∧ u.ST.toNat = t.ST.toNat - 1 ∧
        u = { t with DT := u.DT, ST := u.ST }) ∧
      (t.status ≠ .running → u = t)

/-- R297's "once" over whole sessions, for every list of operations that runs from before `init`: `init` comes first and only
there (log entry 17), no load follows a step, and a load that another load follows was too long. -/
def Obligations.SessionsInitOnceAndLoadBeforeStepping : Prop :=
  ∀ (ops : List HostOp) (m : State) (u : Session), Session.runAll ops ⟨m, .created⟩ = some u →
    (ops ≠ [] → ∃ p, ops[0]? = some (.init p)) ∧
    (∀ (i : Nat) (p : InitParams), ops[i]? = some (.init p) → i = 0) ∧
    (∀ (i j : Nat) (bytes : List Byte), ops[i]? = some .step → ops[j]? = some (.load bytes) → j < i) ∧
    (∀ (i j : Nat) (bytes later : List Byte), i < j → ops[i]? = some (.load bytes) → ops[j]? = some (.load later) →
      bytes.length > 3584)
end

