-- ==== Sys2Proof/Laws/Decode.lean ====
section
/-! SUPPORT. Each field of a word built in a format is the operand put there, so the decoder reads back what the encoder writes. -/

namespace Sys2Proof

/-- A field inside the low part of a concatenation. -/
theorem extractLsb'_append_low {a b s n : Nat} (x : BitVec a) (y : BitVec b) (h : s + n ≤ b) :
    (x ++ y).extractLsb' s n = y.extractLsb' s n := by
  ext i hi
  simp only [BitVec.getElem_extractLsb', BitVec.getLsbD_append]
  rw [if_pos (by omega)]

/-- A field inside the high part of a concatenation. -/
theorem extractLsb'_append_high {a b s n : Nat} (x : BitVec a) (y : BitVec b) (h : b ≤ s) :
    (x ++ y).extractLsb' s n = x.extractLsb' (s - b) n := by
  ext i hi
  simp only [BitVec.getElem_extractLsb', BitVec.getLsbD_append]
  rw [if_neg (by omega), show s + i - b = s - b + i from by omega]

theorem extractLsb'_self {n : Nat} (x : BitVec n) : x.extractLsb' 0 n = x := by
  ext i hi
  simp

theorem reg_toFin_ofFin (x : Reg) : ((BitVec.ofFin x : Nibble).toFin : Reg) = x := rfl

@[simp] theorem primary_formatNNN (op : Nibble) (nnn : Addr) : primary (formatNNN op nnn) = op :=
  (extractLsb'_append_high op nnn (by omega)).trans (extractLsb'_self op)

@[simp] theorem fieldNNN_formatNNN (op : Nibble) (nnn : Addr) : fieldNNN (formatNNN op nnn) = nnn :=
  (extractLsb'_append_low op nnn (by omega)).trans (extractLsb'_self nnn)

@[simp] theorem primary_formatXKK (op : Nibble) (x : Reg) (kk : Byte) : primary (formatXKK op x kk) = op :=
  (extractLsb'_append_high (op ++ (BitVec.ofFin x : Nibble)) kk (by omega)).trans
    ((extractLsb'_append_high op (BitVec.ofFin x : Nibble) (by omega)).trans (extractLsb'_self op))

@[simp] theorem fieldX_formatXKK (op : Nibble) (x : Reg) (kk : Byte) : fieldX (formatXKK op x kk) = x :=
  congrArg BitVec.toFin ((extractLsb'_append_high (op ++ (BitVec.ofFin x : Nibble)) kk (by omega)).trans
    ((extractLsb'_append_low op (BitVec.ofFin x : Nibble) (by omega)).trans (extractLsb'_self _)))

@[simp] theorem fieldKK_formatXKK (op : Nibble) (x : Reg) (kk : Byte) : fieldKK (formatXKK op x kk) = kk :=
  (extractLsb'_append_low (op ++ (BitVec.ofFin x : Nibble)) kk (by omega)).trans (extractLsb'_self kk)

@[simp] theorem primary_formatXYN (op : Nibble) (x y : Reg) (n : Nibble) : primary (formatXYN op x y n) = op :=
  (extractLsb'_append_high (op ++ (BitVec.ofFin x : Nibble) ++ (BitVec.ofFin y : Nibble)) n (by omega)).trans
    ((extractLsb'_append_high (op ++ (BitVec.ofFin x : Nibble)) (BitVec.ofFin y : Nibble) (by omega)).trans
      ((extractLsb'_append_high op (BitVec.ofFin x : Nibble) (by omega)).trans (extractLsb'_self op)))

@[simp] theorem fieldX_formatXYN (op : Nibble) (x y : Reg) (n : Nibble) : fieldX (formatXYN op x y n) = x :=
  congrArg BitVec.toFin
    ((extractLsb'_append_high (op ++ (BitVec.ofFin x : Nibble) ++ (BitVec.ofFin y : Nibble)) n (by omega)).trans
      ((extractLsb'_append_high (op ++ (BitVec.ofFin x : Nibble)) (BitVec.ofFin y : Nibble) (by omega)).trans
        ((extractLsb'_append_low op (BitVec.ofFin x : Nibble) (by omega)).trans (extractLsb'_self _))))

@[simp] theorem fieldY_formatXYN (op : Nibble) (x y : Reg) (n : Nibble) : fieldY (formatXYN op x y n) = y :=
  congrArg BitVec.toFin
    ((extractLsb'_append_high (op ++ (BitVec.ofFin x : Nibble) ++ (BitVec.ofFin y : Nibble)) n (by omega)).trans
      ((extractLsb'_append_low (op ++ (BitVec.ofFin x : Nibble)) (BitVec.ofFin y : Nibble) (by omega)).trans
        (extractLsb'_self _)))

@[simp] theorem fieldN_formatXYN (op : Nibble) (x y : Reg) (n : Nibble) : fieldN (formatXYN op x y n) = n :=
  (extractLsb'_append_low (op ++ (BitVec.ofFin x : Nibble) ++ (BitVec.ofFin y : Nibble)) n (by omega)).trans
    (extractLsb'_self n)

/-- A bit vector is its high part followed by its low part. -/
theorem extractLsb'_high_append_low {a b : Nat} (w : BitVec (a + b)) : w.extractLsb' b a ++ w.extractLsb' 0 b = w := by
  ext i hi
  simp only [BitVec.getElem_append, BitVec.getElem_extractLsb']
  split
  · simp [BitVec.getLsbD_eq_getElem hi]
  · rw [show b + (i - b) = i from by omega, BitVec.getLsbD_eq_getElem hi]

/-- The two bytes of a word make the word again (rule R52). -/
@[simp] theorem wordOfBytes_high_low (w : Word) : wordOfBytes (highByte w) (lowByte w) = w :=
  extractLsb'_high_append_low (a := 8) (b := 8) w

@[simp] theorem highByte_wordOfBytes (hi lo : Byte) : highByte (wordOfBytes hi lo) = hi :=
  (extractLsb'_append_high hi lo (by omega)).trans (extractLsb'_self hi)

@[simp] theorem lowByte_wordOfBytes (hi lo : Byte) : lowByte (wordOfBytes hi lo) = lo :=
  (extractLsb'_append_low hi lo (by omega)).trans (extractLsb'_self lo)

/-- The decoder on the bytes of a word is the decoder on the word. -/
theorem decodeBytes_wordBytes (w : Word) (rest : List Byte) :
    decodeBytes (wordBytes w ++ rest) = (decodeWord w).map fun i => (i, rest) := by
  simp only [wordBytes, List.cons_append, List.nil_append, decodeBytes, wordOfBytes_high_low]
  cases decodeWord w <;> rfl

/-- A field of a field. -/
theorem extractLsb'_extractLsb'_of_le {a s n s' n' : Nat} (w : BitVec a) (h : s' + n' ≤ n) :
    (w.extractLsb' s n).extractLsb' s' n' = w.extractLsb' (s + s') n' := by
  ext i hi
  simp only [BitVec.getElem_extractLsb', BitVec.getLsbD_extractLsb']
  rw [decide_eq_true (by omega), Bool.true_and, Nat.add_assoc]

/-- A word is its primary and its nnn, in format NNN. -/
theorem formatNNN_fields {w : Word} {op : Nibble} (h : primary w = op) : formatNNN op (fieldNNN w) = w :=
  h ▸ extractLsb'_high_append_low (a := 4) (b := 12) w

/-- A word is its primary, x and kk, in format XKK. -/
theorem formatXKK_fields {w : Word} {op : Nibble} {kk : Byte} (h : primary w = op) (hk : fieldKK w = kk) :
    formatXKK op (fieldX w) kk = w := by
  subst h hk
  have h2 := extractLsb'_high_append_low (a := 4) (b := 4) (w.extractLsb' 8 8 : BitVec 8)
  rw [extractLsb'_extractLsb'_of_le w (by omega), extractLsb'_extractLsb'_of_le w (by omega)] at h2
  show w.extractLsb' 12 4 ++ w.extractLsb' 8 4 ++ w.extractLsb' 0 8 = w
  exact (congrArg (· ++ w.extractLsb' 0 8) h2).trans (extractLsb'_high_append_low (a := 8) (b := 8) w)

/-- A word is its four nibbles, in format XYN. -/
theorem formatXYN_fields {w : Word} {op n : Nibble} (h : primary w = op) (hn : fieldN w = n) :
    formatXYN op (fieldX w) (fieldY w) n = w := by
  subst h hn
  have h2 := extractLsb'_high_append_low (a := 4) (b := 4) (w.extractLsb' 8 8 : BitVec 8)
  rw [extractLsb'_extractLsb'_of_le w (by omega), extractLsb'_extractLsb'_of_le w (by omega)] at h2
  show w.extractLsb' 12 4 ++ w.extractLsb' 8 4 ++ w.extractLsb' 4 4 ++ w.extractLsb' 0 4 = w
  have h5 : w.extractLsb' 12 4 ++ w.extractLsb' 8 4 ++ w.extractLsb' 4 4 = (w.extractLsb' 4 12 : BitVec 12) := by
    have := extractLsb'_high_append_low (a := 8) (b := 4) (w.extractLsb' 4 12 : BitVec 12)
    rw [extractLsb'_extractLsb'_of_le w (by omega), extractLsb'_extractLsb'_of_le w (by omega)] at this
    exact (congrArg (· ++ w.extractLsb' 4 4) h2).trans this
  exact (congrArg (· ++ w.extractLsb' 0 4) h5).trans (extractLsb'_high_append_low (a := 12) (b := 4) w)

/-- The last primary, when it is none of the others. -/
theorem primary_eq_F {p : Nibble} (h0 : p ≠ 0x0#4) (h1 : p ≠ 0x1#4) (h2 : p ≠ 0x2#4) (h3 : p ≠ 0x3#4) (h4 : p ≠ 0x4#4)
    (h5 : p ≠ 0x5#4) (h6 : p ≠ 0x6#4) (h7 : p ≠ 0x7#4) (h8 : p ≠ 0x8#4) (h9 : p ≠ 0x9#4) (ha : p ≠ 0xA#4) (hb : p ≠ 0xB#4)
    (hc : p ≠ 0xC#4) (hd : p ≠ 0xD#4) (he : p ≠ 0xE#4) : p = 0xF#4 := by
  bv_omega

/-- The only rejection of a word is Unknown, with the word. -/
theorem decodeWord_error {w : Word} {e : DecodeReject} (h : decodeWord w = .error e) : e = .unknown w := by
  unfold decodeWord decode0 decode8 decodeE decodeF at h
  repeat' split at h
  all_goals first | exact (Except.error.inj h).symm | cases h

end Sys2Proof
end

