-- ==== Sys2Proof/Laws/Display.lean ====
section
/-! SUPPORT. The laws of the display: a flip changes its one cell, and what one sprite bit, one sprite row and a sprite do to every cell. -/

namespace Sys2Proof.Machine

@[simp] theorem Display.cell_blank (x y : Nat) : Display.blank.cell x y = false := by
  unfold Display.cell Display.row Display.blank
  split <;> simp

/-- A column mask is on at its own column only. -/
theorem Display.getMsbD_columnMask {x j : Nat} (hx : x ≤ 63) :
    (Display.columnMask x).getMsbD j = decide (j = x) := by
  have h0 : ∀ k : Nat, (0x8000000000000000#64).getLsbD k = decide (k = 63) := by
    intro k
    by_cases hk : k < 64
    · interval_cases k <;> rfl
    · rw [BitVec.getLsbD_of_ge _ _ (by omega)]
      exact (decide_eq_false (by omega)).symm
  simp only [BitVec.getMsbD_eq_getLsbD, Display.columnMask, BitVec.getLsbD_ushiftRight, h0]
  by_cases hj : j < 64
  · simp only [hj, decide_true, Bool.true_and, decide_eq_decide]
    omega
  · simp only [hj, decide_false, Bool.false_and]
    exact (decide_eq_false (by omega)).symm

/-- `disp[cx][cy] ^ 1` changes cell (cx, cy) and no other. -/
theorem Display.cell_flip (d : Display) {cx cy : Nat} (hx : cx ≤ 63) (hy : cy ≤ 31) (x y : Nat) :
    (d.flip cx cy).cell x y = (d.cell x y ^^ (decide (x = cx) && decide (y = cy))) := by
  have h : cy < 32 := by omega
  by_cases hy2 : y = cy
  · subst hy2
    simp [Display.cell, Display.row, Display.flip, h, Display.getMsbD_columnMask hx]
  · have hne : cy ≠ y := fun e => hy2 e.symm
    by_cases hr : y < 32 <;> simp [Display.cell, Display.row, Display.flip, h, hr, hy2, hne]

/-- Two displays whose cells are alike are equal. -/
theorem Display.ext_cell {d e : Display} (h : ∀ x y, x ≤ 63 → y ≤ 31 → d.cell x y = e.cell x y) : d = e := by
  apply Vector.ext
  intro y hy
  apply BitVec.eq_of_getMsbD_eq
  intro x hx
  have := h x y (by omega) (by omega)
  simpa [Display.cell, Display.row, hy] using this

/-- Every cell after one sprite bit: flipped where the bit is drawn (rule R251). -/
theorem blitBit_cell (cx cy : Nat) (bit : Bool) (p : Blit) {x y : Nat} (hx : x ≤ 63) (hy : y ≤ 31) :
    (blitBit cx cy bit p).1.cell x y = (p.1.cell x y ^^ (decide (x = cx) && decide (y = cy) && bit)) := by
  unfold blitBit
  split
  · rename_i h
    simp [Display.cell_flip p.1 h.1 h.2.1, h.2.2]
  · rename_i h
    by_cases hb : bit = true
    · have : ¬(x = cx ∧ y = cy) := fun e => h ⟨by omega, by omega, hb⟩
      by_cases h1 : x = cx <;> by_cases h2 : y = cy <;> simp_all
    · simp [Bool.eq_false_iff.mpr hb]

/-- The collision after one sprite bit: there was one, or the bit is drawn on a cell that was on (rule R251). -/
theorem blitBit_hit (cx cy : Nat) (bit : Bool) (p : Blit) :
    (blitBit cx cy bit p).2 = (p.2 || (decide (cx ≤ 63) && decide (cy ≤ 31) && bit && p.1.cell cx cy)) := by
  unfold blitBit
  split
  · rename_i h
    simp [h.1, h.2.1, h.2.2]
  · rename_i h
    by_cases h1 : cx ≤ 63 <;> by_cases h2 : cy ≤ 31 <;> cases bit <;> simp_all

/-- The first m columns of a sprite row. -/
def blitColumns (x0 cy : Nat) (row : Byte) (p : Blit) (m : Nat) : Blit :=
  (List.range m).foldl (fun q j => blitBit (x0 + j) cy (spriteBit row j) q) p

theorem blitRow_eq_columns (x0 cy : Nat) (row : Byte) (p : Blit) : blitRow x0 cy row p = blitColumns x0 cy row p 8 := rfl

theorem blitColumns_succ (x0 cy : Nat) (row : Byte) (p : Blit) (m : Nat) :
    blitColumns x0 cy row p (m + 1) = blitBit (x0 + m) cy (spriteBit row m) (blitColumns x0 cy row p m) := by
  simp [blitColumns, List.range_succ]

theorem blitColumns_cell (x0 cy : Nat) (row : Byte) (p : Blit) (m : Nat) {x y : Nat} (hx : x ≤ 63) (hy : y ≤ 31) :
    (blitColumns x0 cy row p m).1.cell x y =
      (p.1.cell x y ^^ (decide (y = cy ∧ x0 ≤ x ∧ x < x0 + m) && spriteBit row (x - x0))) := by
  induction m with
  | zero =>
    rw [decide_eq_false (by omega)]
    simp [blitColumns]
  | succ m ih =>
    rw [blitColumns_succ, blitBit_cell _ _ _ _ hx hy, ih]
    by_cases h1 : y = cy
    · by_cases h2 : x = x0 + m
      · subst h2
        rw [decide_eq_false (p := y = cy ∧ _) (by omega), decide_eq_true (p := y = cy ∧ _) (by omega)]
        simp [h1]
      · by_cases h3 : x0 ≤ x ∧ x < x0 + m
        · rw [decide_eq_true (p := y = cy ∧ _) (by omega), decide_eq_true (p := y = cy ∧ _) (by omega)]
          simp [h2]
        · rw [decide_eq_false (p := y = cy ∧ _) (by omega), decide_eq_false (p := y = cy ∧ _) (by omega)]
          simp [h2]
    · simp [h1]

theorem blitColumns_hit (x0 cy : Nat) (row : Byte) (p : Blit) (m : Nat) :
    (blitColumns x0 cy row p m).2 = true ↔ p.2 = true ∨
      ∃ j < m, x0 + j ≤ 63 ∧ cy ≤ 31 ∧ spriteBit row j = true ∧ p.1.cell (x0 + j) cy = true := by
  induction m with
  | zero => simp [blitColumns]
  | succ m ih =>
    rw [blitColumns_succ, blitBit_hit]
    simp only [Bool.or_eq_true, Bool.and_eq_true, decide_eq_true_eq, ih]
    constructor
    · rintro ((h | ⟨j, hj, h⟩) | ⟨⟨⟨h1, h2⟩, h3⟩, h4⟩)
      · exact .inl h
      · exact .inr ⟨j, by omega, h⟩
      · rw [blitColumns_cell _ _ _ _ _ h1 h2, decide_eq_false (by omega)] at h4
        exact .inr ⟨m, by omega, h1, h2, h3, by simpa using h4⟩
    · rintro (h | ⟨j, hj, h1, h2, h3, h4⟩)
      · exact .inl (.inl h)
      · by_cases hm : j = m
        · subst hm
          refine .inr ⟨⟨⟨h1, h2⟩, h3⟩, ?_⟩
          rw [blitColumns_cell _ _ _ _ _ h1 h2, decide_eq_false (by omega)]
          simpa using h4
        · exact .inl (.inr ⟨j, by omega, h1, h2, h3, h4⟩)

/-- Every cell after a sprite row: XORed with the bit that falls on it. -/
theorem blitRow_cell (x0 cy : Nat) (row : Byte) (p : Blit) {x y : Nat} (hx : x ≤ 63) (hy : y ≤ 31) :
    (blitRow x0 cy row p).1.cell x y =
      (p.1.cell x y ^^ (decide (y = cy ∧ x0 ≤ x ∧ x < x0 + 8) && spriteBit row (x - x0))) :=
  blitColumns_cell x0 cy row p 8 hx hy

/-- The collision after a sprite row: there was one, or a drawn bit of the row met a cell that was on. -/
theorem blitRow_hit (x0 cy : Nat) (row : Byte) (p : Blit) :
    (blitRow x0 cy row p).2 = true ↔ p.2 = true ∨
      ∃ j < 8, x0 + j ≤ 63 ∧ cy ≤ 31 ∧ spriteBit row j = true ∧ p.1.cell (x0 + j) cy = true :=
  blitColumns_hit x0 cy row p 8

/-- The bit of the sprite whose rows stand from (x0, y0) that falls on cell (x, y). -/
def rowsBit (x0 y0 : Nat) (rows : List Byte) (x y : Nat) : Bool :=
  decide (x0 ≤ x ∧ x < x0 + 8 ∧ y0 ≤ y ∧ y < y0 + rows.length) && spriteBit (rows.getD (y - y0) 0) (x - x0)

theorem rowsBit_cons (x0 y0 : Nat) (row : Byte) (rows : List Byte) (x y : Nat) :
    rowsBit x0 y0 (row :: rows) x y =
      ((decide (y = y0 ∧ x0 ≤ x ∧ x < x0 + 8) && spriteBit row (x - x0)) ^^ rowsBit x0 (y0 + 1) rows x y) := by
  unfold rowsBit
  by_cases h : y = y0
  · subst h
    rw [decide_eq_false (p := x0 ≤ x ∧ x < x0 + 8 ∧ y + 1 ≤ y ∧ _) (by omega)]
    by_cases h2 : x0 ≤ x ∧ x < x0 + 8
    · rw [decide_eq_true (p := x0 ≤ x ∧ _) ⟨h2.1, h2.2, by omega, by simp⟩, decide_eq_true (p := y = y ∧ _) ⟨rfl, h2⟩]
      simp
    · rw [decide_eq_false (p := x0 ≤ x ∧ _) (by omega), decide_eq_false (p := y = y ∧ _) (by omega)]
      simp
  · rw [decide_eq_false (p := y = y0 ∧ _) (by omega)]
    by_cases h2 : x0 ≤ x ∧ x < x0 + 8 ∧ y0 + 1 ≤ y ∧ y < y0 + 1 + rows.length
    · rw [decide_eq_true (p := x0 ≤ x ∧ x < x0 + 8 ∧ y0 ≤ y ∧ _) ⟨h2.1, h2.2.1, by omega, by simp only [List.length_cons]; omega⟩,
        decide_eq_true h2, show y - y0 = y - (y0 + 1) + 1 from by omega]
      simp
    · rw [decide_eq_false (p := x0 ≤ x ∧ x < x0 + 8 ∧ y0 ≤ y ∧ _) (by simp only [List.length_cons]; omega), decide_eq_false h2]
      simp

/-- Every cell after the blit: XORed with the sprite bit that falls on it (rule R251). -/
theorem blitRows_cell (x0 y0 : Nat) (rows : List Byte) (p : Blit) {x y : Nat} (hx : x ≤ 63) (hy : y ≤ 31) :
    (blitRows x0 y0 rows p).1.cell x y = (p.1.cell x y ^^ rowsBit x0 y0 rows x y) := by
  induction rows generalizing y0 p with
  | nil =>
    unfold rowsBit
    rw [decide_eq_false (by simp only [List.length_nil]; omega)]
    simp [blitRows]
  | cons row rows ih =>
    rw [blitRows, ih, blitRow_cell _ _ _ _ hx hy, rowsBit_cons, Bool.xor_assoc]

/-- The collision after the blit: there was one, or a drawn sprite bit met a cell that was on (rule R251). -/
theorem blitRows_hit (x0 y0 : Nat) (rows : List Byte) (p : Blit) :
    (blitRows x0 y0 rows p).2 = true ↔ p.2 = true ∨
      ∃ x y, x ≤ 63 ∧ y ≤ 31 ∧ rowsBit x0 y0 rows x y = true ∧ p.1.cell x y = true := by
  induction rows generalizing y0 p with
  | nil =>
    have : ∀ x y, rowsBit x0 y0 [] x y = false := fun x y => by
      unfold rowsBit
      rw [decide_eq_false (by simp only [List.length_nil]; omega)]
      rfl
    simp [blitRows, this]
  | cons row rows ih =>
    have hlow : ∀ x, rowsBit x0 (y0 + 1) rows x y0 = false := fun x => by
      unfold rowsBit
      rw [decide_eq_false (by omega)]
      rfl
    rw [blitRows, ih, blitRow_hit]
    constructor
    · rintro ((h | ⟨j, hj, h1, h2, h3, h4⟩) | ⟨x, y, hx, hy, h1, h2⟩)
      · exact .inl h
      · refine .inr ⟨x0 + j, y0, h1, h2, ?_, h4⟩
        rw [rowsBit_cons, hlow, decide_eq_true (by omega), show x0 + j - x0 = j from by omega, h3]
        rfl
      · have hne : y ≠ y0 := by
          rintro rfl
          rw [hlow] at h1
          cases h1
        rw [blitRow_cell _ _ _ _ hx hy, decide_eq_false (by omega)] at h2
        refine .inr ⟨x, y, hx, hy, ?_, by simpa using h2⟩
        rw [rowsBit_cons, decide_eq_false (by omega), h1]
        rfl
    · rintro (h | ⟨x, y, hx, hy, h1, h2⟩)
      · exact .inl (.inl h)
      · rw [rowsBit_cons] at h1
        by_cases hyy : y = y0
        · subst hyy
          rw [hlow, Bool.xor_false, Bool.and_eq_true, decide_eq_true_eq] at h1
          refine .inl (.inr ⟨x - x0, by omega, ?_, hy, h1.2, ?_⟩)
          · omega
          · rwa [show x0 + (x - x0) = x from by omega]
        · rw [decide_eq_false (by omega), Bool.false_and, Bool.false_xor] at h1
          refine .inr ⟨x, y, hx, hy, h1, ?_⟩
          rw [blitRow_cell _ _ _ _ hx hy, decide_eq_false (by omega)]
          simpa using h2

end Sys2Proof.Machine
end

