-- ==== Sys2Proof/Laws/Memory.lean ====
section
/-! SUPPORT. The laws of memory: read after write, the canonical form is kept, equal reads make equal memories, and the blocks. -/

namespace Sys2Proof.Machine

theorem maskAddr_lt (a : Nat) : maskAddr a < 4096 := Nat.mod_lt _ (by omega)

@[simp] theorem maskAddr_of_lt {a : Nat} (h : a < 4096) : maskAddr a = a := Nat.mod_eq_of_lt h

/-- Rule R51 writes the mask as `a & 0xFFF`. -/
theorem maskAddr_eq_and (a : Nat) : maskAddr a = a &&& 0xFFF :=
  (Nat.and_two_pow_sub_one_eq_mod a 12).symm

/-- An address below every entry reads as an unlisted one. -/
theorem Memory.read_of_wfFrom_lt {m : Memory} {lo k : Nat} (h : Memory.wfFrom lo m = true) (hk : k < lo) :
    m.read k = Memory.unlisted := by
  induction m generalizing lo with
  | nil => rfl
  | cons c m ih =>
    simp only [Memory.wfFrom, Bool.and_eq_true, decide_eq_true_eq] at h
    obtain ⟨⟨⟨h1, -⟩, -⟩, h4⟩ := h
    rw [Memory.read, if_neg (by omega)]
    exact ih h4 (by omega)

theorem Memory.wfFrom_mono {m : Memory} {lo lo' : Nat} (h : Memory.wfFrom lo m = true) (hl : lo' ≤ lo) :
    Memory.wfFrom lo' m = true := by
  cases m with
  | nil => rfl
  | cons c m =>
    simp only [Memory.wfFrom, Bool.and_eq_true, decide_eq_true_eq] at h ⊢
    exact ⟨⟨⟨by omega, h.1.1.2⟩, h.1.2⟩, h.2⟩

/-- A store keeps the canonical form. -/
theorem Memory.wfFrom_write {m : Memory} {lo k : Nat} {v : Byte} (h : Memory.wfFrom lo m = true) (hl : lo ≤ k)
    (hk : k < 4096) : Memory.wfFrom lo (m.write k v) = true := by
  induction m generalizing lo with
  | nil =>
    unfold Memory.write
    split <;> simp_all [Memory.wfFrom]
  | cons c m ih =>
    simp only [Memory.wfFrom, Bool.and_eq_true, decide_eq_true_eq] at h
    obtain ⟨⟨⟨h1, h2⟩, h3⟩, h4⟩ := h
    unfold Memory.write
    split_ifs with c1 c2 c3 c4
    · simp [Memory.wfFrom, h1, h2, h3, h4]
    · simp only [Memory.wfFrom, Bool.and_eq_true, decide_eq_true_eq]
      exact ⟨⟨⟨hl, hk⟩, c2⟩, ⟨⟨by omega, h2⟩, h3⟩, h4⟩
    · exact Memory.wfFrom_mono h4 (by omega)
    · simp only [Memory.wfFrom, Bool.and_eq_true, decide_eq_true_eq]
      exact ⟨⟨⟨hl, hk⟩, c4⟩, c3 ▸ h4⟩
    · simp only [Memory.wfFrom, Bool.and_eq_true, decide_eq_true_eq]
      exact ⟨⟨⟨h1, h2⟩, h3⟩, ih h4 (by omega)⟩

theorem Memory.wf_write {m : Memory} {k : Nat} {v : Byte} (h : m.wf = true) (hk : k < 4096) :
    (m.write k v).wf = true :=
  Memory.wfFrom_write h (Nat.zero_le k) hk

/-- A read after a store, on a canonical memory. -/
theorem Memory.read_write_from {m : Memory} {lo k : Nat} {v : Byte} (h : Memory.wfFrom lo m = true) (j : Nat) :
    (m.write k v).read j = if j = k then v else m.read j := by
  induction m generalizing lo with
  | nil =>
    unfold Memory.write
    split_ifs with c1 <;> simp_all [Memory.read]
  | cons c m ih =>
    simp only [Memory.wfFrom, Bool.and_eq_true, decide_eq_true_eq] at h
    obtain ⟨-, h4⟩ := h
    unfold Memory.write
    by_cases hj : j = k
    · subst hj
      rw [if_pos rfl]
      split_ifs with c1 c2 c3 c4
      · subst c2
        rw [Memory.read, if_neg (by omega)]
        exact Memory.read_of_wfFrom_lt h4 (by omega)
      · simp [Memory.read]
      · subst c4
        exact Memory.read_of_wfFrom_lt h4 (by omega)
      · simp [Memory.read]
      · rw [Memory.read, if_neg (by omega), ih h4, if_pos rfl]
    · rw [if_neg hj]
      split_ifs with c1 c2 c3 c4
      · rfl
      · simp [Memory.read, hj]
      · simp [Memory.read, ← c3, hj]
      · simp [Memory.read, ← c3, hj]
      · simp only [Memory.read]
        rw [ih h4, if_neg hj]

theorem Memory.read_write {m : Memory} {k : Nat} {v : Byte} (h : m.wf = true) (j : Nat) :
    (m.write k v).read j = if j = k then v else m.read j :=
  Memory.read_write_from h j

/-- Equal reads make equal memories: the form is canonical. -/
theorem Memory.ext_from {m n : Memory} {lo : Nat} (hm : Memory.wfFrom lo m = true) (hn : Memory.wfFrom lo n = true)
    (h : ∀ a, m.read a = n.read a) : m = n := by
  induction m generalizing n lo with
  | nil =>
    cases n with
    | nil => rfl
    | cons d n =>
      simp only [Memory.wfFrom, Bool.and_eq_true, decide_eq_true_eq] at hn
      have := h d.1
      simp [Memory.read] at this
      exact absurd this.symm hn.1.2
  | cons c m ih =>
    simp only [Memory.wfFrom, Bool.and_eq_true, decide_eq_true_eq] at hm
    obtain ⟨⟨⟨h1, h2⟩, h3⟩, h4⟩ := hm
    cases n with
    | nil =>
      have := h c.1
      simp [Memory.read] at this
      exact absurd this h3
    | cons d n =>
      simp only [Memory.wfFrom, Bool.and_eq_true, decide_eq_true_eq] at hn
      obtain ⟨⟨⟨k1, k2⟩, k3⟩, k4⟩ := hn
      have hcd : c.1 = d.1 := by
        rcases Nat.lt_trichotomy c.1 d.1 with hlt | heq | hgt
        · have := h c.1
          rw [Memory.read, if_pos rfl, Memory.read, if_neg (by omega), Memory.read_of_wfFrom_lt k4 (by omega)] at this
          exact absurd this h3
        · exact heq
        · have := h d.1
          rw [Memory.read, if_neg (by omega), Memory.read_of_wfFrom_lt h4 (by omega), Memory.read, if_pos rfl] at this
          exact absurd this.symm k3
      have hval : c.2 = d.2 := by
        have := h c.1
        simpa [Memory.read, hcd] using this
      have htail : m = n := by
        refine ih h4 (hcd ▸ k4) fun a => ?_
        by_cases ha : a = c.1
        · rw [Memory.read_of_wfFrom_lt h4 (by omega), Memory.read_of_wfFrom_lt k4 (by omega)]
        · have := h a
          rwa [Memory.read, if_neg ha, Memory.read, if_neg (hcd ▸ ha)] at this
      rw [htail]
      exact congrArg (· :: n) (Prod.ext hcd hval)

theorem Memory.ext {m n : Memory} (hm : m.wf = true) (hn : n.wf = true) (h : ∀ a, m.read a = n.read a) : m = n :=
  Memory.ext_from hm hn h

/-- A block store keeps the canonical form. -/
theorem Memory.wf_writeBlock {m : Memory} (h : m.wf = true) (a : Nat) (bs : List Byte) : (m.writeBlock a bs).wf = true := by
  induction bs generalizing m a with
  | nil => exact h
  | cons b bs ih => exact ih (Memory.wf_write h (maskAddr_lt a)) (a + 1)

/-- An address no byte of the block is stored to reads as before. -/
theorem Memory.read_writeBlock_other {m : Memory} (h : m.wf = true) {a k : Nat} {bs : List Byte}
    (hk : ∀ i < bs.length, k ≠ maskAddr (a + i)) : (m.writeBlock a bs).read k = m.read k := by
  induction bs generalizing m a with
  | nil => rfl
  | cons b bs ih =>
    rw [Memory.writeBlock, ih (Memory.wf_write h (maskAddr_lt a)), Memory.read_write h, if_neg]
    · exact hk 0 (by simp)
    · intro i hi
      have := hk (i + 1) (by simpa using hi)
      rwa [show a + (i + 1) = a + 1 + i from by omega] at this

/-- Byte i of a block of at most 4096 bytes, read where it was stored. -/
theorem Memory.read_writeBlock_at {m : Memory} (h : m.wf = true) {a i : Nat} {bs : List Byte} (hi : i < bs.length)
    (hl : bs.length ≤ 4096) : (m.writeBlock a bs).read (maskAddr (a + i)) = bs[i] := by
  induction bs generalizing m a i with
  | nil => simp at hi
  | cons b bs ih =>
    simp only [List.length_cons] at hi hl
    rw [Memory.writeBlock]
    cases i with
    | zero =>
      rw [Memory.read_writeBlock_other (Memory.wf_write h (maskAddr_lt a)), Memory.read_write h, if_pos (by simp)]
      · rfl
      · intro j hj
        unfold maskAddr
        omega
    | succ i =>
      rw [show a + (i + 1) = a + 1 + i from by omega, ih (Memory.wf_write h (maskAddr_lt a)) (by omega) (by omega)]
      rfl

@[simp] theorem Memory.length_readBlock (m : Memory) (a n : Nat) : (m.readBlock a n).length = n := by
  induction n generalizing a with
  | zero => rfl
  | succ n ih => simp [Memory.readBlock, ih]

theorem Memory.getElem_readBlock (m : Memory) (a n i : Nat) (h : i < (m.readBlock a n).length) :
    (m.readBlock a n)[i] = m.read (maskAddr (a + i)) := by
  induction n generalizing a i with
  | zero => simp [Memory.readBlock] at h
  | succ n ih =>
    cases i with
    | zero => rfl
    | succ i =>
      simp only [Memory.readBlock, List.getElem_cons_succ]
      rw [ih, show a + 1 + i = a + (i + 1) from by omega]

end Sys2Proof.Machine
end

