-- ==== Sys2Proof/Laws/PerInstr.lean ====
section
/-! SUPPORT. The per-instruction family EncodeRow: every instruction is well-formed, its word takes two bytes, and its word's selector bits are its own row's. -/

namespace Sys2Proof.Laws.EncodeRow

open Sys2Proof

/-- The operands fit their fields, the instruction is two bytes long (rule R70), and the primary selector of its word
(rule R72) is the one its row's pattern has. -/
def Statement (i : Instr) : Prop :=
  i.wellFormed = true ∧ (encodeBytes i).length = 2 ∧
    ∃ r ∈ opcodeTable, r.mnemonic = i.mnemonic ∧ primary (encode i) = primary r.pattern

theorem fits_reg (x : Reg) : (Field.reg x).fits = true := decide_eq_true x.isLt
theorem fits_byte (kk : Byte) : (Field.mk 8 kk.toNat).fits = true := decide_eq_true kk.isLt
theorem fits_addr (nnn : Addr) : (Field.mk 12 nnn.toNat).fits = true := decide_eq_true nnn.isLt
theorem fits_nibble (n : Nibble) : (Field.mk 4 n.toNat).fits = true := decide_eq_true n.isLt

theorem cls : Statement (.cls) :=
  ⟨rfl, rfl,
    ⟨"CLS", 0x00E0, 0xFFFF⟩, by decide, rfl, rfl⟩

theorem ret : Statement (.ret) :=
  ⟨rfl, rfl,
    ⟨"RET", 0x00EE, 0xFFFF⟩, by decide, rfl, rfl⟩

theorem jp (nnn : Addr) : Statement (.jp nnn) :=
  ⟨by simp [Instr.wellFormed, Instr.fields, fits_addr], rfl,
    ⟨"JP_nnn", 0x1000, 0xF000⟩, by decide, rfl, primary_formatNNN ..⟩

theorem call (nnn : Addr) : Statement (.call nnn) :=
  ⟨by simp [Instr.wellFormed, Instr.fields, fits_addr], rfl,
    ⟨"CALL_nnn", 0x2000, 0xF000⟩, by decide, rfl, primary_formatNNN ..⟩

theorem seImm (x : Reg) (kk : Byte) : Statement (.seImm x kk) :=
  ⟨by simp [Instr.wellFormed, Instr.fields, fits_reg, fits_byte], rfl,
    ⟨"SE_Vx__kk", 0x3000, 0xF000⟩, by decide, rfl, primary_formatXKK ..⟩

theorem sneImm (x : Reg) (kk : Byte) : Statement (.sneImm x kk) :=
  ⟨by simp [Instr.wellFormed, Instr.fields, fits_reg, fits_byte], rfl,
    ⟨"SNE_Vx__kk", 0x4000, 0xF000⟩, by decide, rfl, primary_formatXKK ..⟩

theorem seReg (x y : Reg) : Statement (.seReg x y) :=
  ⟨by simp [Instr.wellFormed, Instr.fields, fits_reg], rfl,
    ⟨"SE_Vx__Vy", 0x5000, 0xF00F⟩, by decide, rfl, primary_formatXYN ..⟩

theorem ldImm (x : Reg) (kk : Byte) : Statement (.ldImm x kk) :=
  ⟨by simp [Instr.wellFormed, Instr.fields, fits_reg, fits_byte], rfl,
    ⟨"LD_Vx__kk", 0x6000, 0xF000⟩, by decide, rfl, primary_formatXKK ..⟩

theorem addImm (x : Reg) (kk : Byte) : Statement (.addImm x kk) :=
  ⟨by simp [Instr.wellFormed, Instr.fields, fits_reg, fits_byte], rfl,
    ⟨"ADD_Vx__kk", 0x7000, 0xF000⟩, by decide, rfl, primary_formatXKK ..⟩

theorem ldReg (x y : Reg) : Statement (.ldReg x y) :=
  ⟨by simp [Instr.wellFormed, Instr.fields, fits_reg], rfl,
    ⟨"LD_Vx__Vy", 0x8000, 0xF00F⟩, by decide, rfl, primary_formatXYN ..⟩

theorem orReg (x y : Reg) : Statement (.orReg x y) :=
  ⟨by simp [Instr.wellFormed, Instr.fields, fits_reg], rfl,
    ⟨"OR_Vx__Vy", 0x8001, 0xF00F⟩, by decide, rfl, primary_formatXYN ..⟩

theorem andReg (x y : Reg) : Statement (.andReg x y) :=
  ⟨by simp [Instr.wellFormed, Instr.fields, fits_reg], rfl,
    ⟨"AND_Vx__Vy", 0x8002, 0xF00F⟩, by decide, rfl, primary_formatXYN ..⟩

theorem xorReg (x y : Reg) : Statement (.xorReg x y) :=
  ⟨by simp [Instr.wellFormed, Instr.fields, fits_reg], rfl,
    ⟨"XOR_Vx__Vy", 0x8003, 0xF00F⟩, by decide, rfl, primary_formatXYN ..⟩

theorem addReg (x y : Reg) : Statement (.addReg x y) :=
  ⟨by simp [Instr.wellFormed, Instr.fields, fits_reg], rfl,
    ⟨"ADD_Vx__Vy", 0x8004, 0xF00F⟩, by decide, rfl, primary_formatXYN ..⟩

theorem subReg (x y : Reg) : Statement (.subReg x y) :=
  ⟨by simp [Instr.wellFormed, Instr.fields, fits_reg], rfl,
    ⟨"SUB_Vx__Vy", 0x8005, 0xF00F⟩, by decide, rfl, primary_formatXYN ..⟩

theorem shr (x y : Reg) : Statement (.shr x y) :=
  ⟨by simp [Instr.wellFormed, Instr.fields, fits_reg], rfl,
    ⟨"SHR_Vx", 0x8006, 0xF00F⟩, by decide, rfl, primary_formatXYN ..⟩

theorem subn (x y : Reg) : Statement (.subn x y) :=
  ⟨by simp [Instr.wellFormed, Instr.fields, fits_reg], rfl,
    ⟨"SUBN_Vx__Vy", 0x8007, 0xF00F⟩, by decide, rfl, primary_formatXYN ..⟩

theorem shl (x y : Reg) : Statement (.shl x y) :=
  ⟨by simp [Instr.wellFormed, Instr.fields, fits_reg], rfl,
    ⟨"SHL_Vx", 0x800E, 0xF00F⟩, by decide, rfl, primary_formatXYN ..⟩

theorem sneReg (x y : Reg) : Statement (.sneReg x y) :=
  ⟨by simp [Instr.wellFormed, Instr.fields, fits_reg], rfl,
    ⟨"SNE_Vx__Vy", 0x9000, 0xF00F⟩, by decide, rfl, primary_formatXYN ..⟩

theorem ldI (nnn : Addr) : Statement (.ldI nnn) :=
  ⟨by simp [Instr.wellFormed, Instr.fields, fits_addr], rfl,
    ⟨"LD_I__nnn", 0xA000, 0xF000⟩, by decide, rfl, primary_formatNNN ..⟩

theorem jpV0 (nnn : Addr) : Statement (.jpV0 nnn) :=
  ⟨by simp [Instr.wellFormed, Instr.fields, fits_addr], rfl,
    ⟨"JP_V0__nnn", 0xB000, 0xF000⟩, by decide, rfl, primary_formatNNN ..⟩

theorem rnd (x : Reg) (kk : Byte) : Statement (.rnd x kk) :=
  ⟨by simp [Instr.wellFormed, Instr.fields, fits_reg, fits_byte], rfl,
    ⟨"RND_Vx__kk", 0xC000, 0xF000⟩, by decide, rfl, primary_formatXKK ..⟩

theorem drw (x y : Reg) (n : Nibble) : Statement (.drw x y n) :=
  ⟨by simp [Instr.wellFormed, Instr.fields, fits_reg, fits_nibble], rfl,
    ⟨"DRW_Vx__Vy__n", 0xD000, 0xF000⟩, by decide, rfl, primary_formatXYN ..⟩

theorem skp (x : Reg) : Statement (.skp x) :=
  ⟨by simp [Instr.wellFormed, Instr.fields, fits_reg], rfl,
    ⟨"SKP_Vx", 0xE09E, 0xF0FF⟩, by decide, rfl, primary_formatXKK ..⟩

theorem sknp (x : Reg) : Statement (.sknp x) :=
  ⟨by simp [Instr.wellFormed, Instr.fields, fits_reg], rfl,
    ⟨"SKNP_Vx", 0xE0A1, 0xF0FF⟩, by decide, rfl, primary_formatXKK ..⟩

theorem ldVxDT (x : Reg) : Statement (.ldVxDT x) :=
  ⟨by simp [Instr.wellFormed, Instr.fields, fits_reg], rfl,
    ⟨"LD_Vx__DT", 0xF007, 0xF0FF⟩, by decide, rfl, primary_formatXKK ..⟩

theorem ldVxK (x : Reg) : Statement (.ldVxK x) :=
  ⟨by simp [Instr.wellFormed, Instr.fields, fits_reg], rfl,
    ⟨"LD_Vx__K", 0xF00A, 0xF0FF⟩, by decide, rfl, primary_formatXKK ..⟩

theorem ldDTVx (x : Reg) : Statement (.ldDTVx x) :=
  ⟨by simp [Instr.wellFormed, Instr.fields, fits_reg], rfl,
    ⟨"LD_DT__Vx", 0xF015, 0xF0FF⟩, by decide, rfl, primary_formatXKK ..⟩

theorem ldSTVx (x : Reg) : Statement (.ldSTVx x) :=
  ⟨by simp [Instr.wellFormed, Instr.fields, fits_reg], rfl,
    ⟨"LD_ST__Vx", 0xF018, 0xF0FF⟩, by decide, rfl, primary_formatXKK ..⟩

theorem addI (x : Reg) : Statement (.addI x) :=
  ⟨by simp [Instr.wellFormed, Instr.fields, fits_reg], rfl,
    ⟨"ADD_I__Vx", 0xF01E, 0xF0FF⟩, by decide, rfl, primary_formatXKK ..⟩

theorem ldF (x : Reg) : Statement (.ldF x) :=
  ⟨by simp [Instr.wellFormed, Instr.fields, fits_reg], rfl,
    ⟨"LD_F__Vx", 0xF029, 0xF0FF⟩, by decide, rfl, primary_formatXKK ..⟩

theorem ldB (x : Reg) : Statement (.ldB x) :=
  ⟨by simp [Instr.wellFormed, Instr.fields, fits_reg], rfl,
    ⟨"LD_B__Vx", 0xF033, 0xF0FF⟩, by decide, rfl, primary_formatXKK ..⟩

theorem storeRegs (x : Reg) : Statement (.storeRegs x) :=
  ⟨by simp [Instr.wellFormed, Instr.fields, fits_reg], rfl,
    ⟨"LD__I___Vx", 0xF055, 0xF0FF⟩, by decide, rfl, primary_formatXKK ..⟩

theorem loadRegs (x : Reg) : Statement (.loadRegs x) :=
  ⟨by simp [Instr.wellFormed, Instr.fields, fits_reg], rfl,
    ⟨"LD_Vx___I", 0xF065, 0xF0FF⟩, by decide, rfl, primary_formatXKK ..⟩

end Sys2Proof.Laws.EncodeRow
end

