-- ==== Sys2Proof/Laws/State.lean ====
section
/-! SUPPORT. What each update of the state leaves alone: one lemma a field an update, and the registers' read after write. -/

namespace Sys2Proof.Machine

@[simp] theorem State.setReg_I (s : State) (r : Reg) (v : Byte) : (s.setReg r v).I = s.I := rfl
@[simp] theorem State.setReg_pc (s : State) (r : Reg) (v : Byte) : (s.setReg r v).pc = s.pc := rfl
@[simp] theorem State.setReg_sp (s : State) (r : Reg) (v : Byte) : (s.setReg r v).sp = s.sp := rfl
@[simp] theorem State.setReg_stack (s : State) (r : Reg) (v : Byte) : (s.setReg r v).stack = s.stack := rfl
@[simp] theorem State.setReg_DT (s : State) (r : Reg) (v : Byte) : (s.setReg r v).DT = s.DT := rfl
@[simp] theorem State.setReg_ST (s : State) (r : Reg) (v : Byte) : (s.setReg r v).ST = s.ST := rfl
@[simp] theorem State.setReg_opcode (s : State) (r : Reg) (v : Byte) : (s.setReg r v).opcode = s.opcode := rfl
@[simp] theorem State.setReg_rng (s : State) (r : Reg) (v : Byte) : (s.setReg r v).rng = s.rng := rfl
@[simp] theorem State.setReg_mem (s : State) (r : Reg) (v : Byte) : (s.setReg r v).mem = s.mem := rfl
@[simp] theorem State.setReg_disp (s : State) (r : Reg) (v : Byte) : (s.setReg r v).disp = s.disp := rfl
@[simp] theorem State.setReg_key (s : State) (r : Reg) (v : Byte) : (s.setReg r v).key = s.key := rfl
@[simp] theorem State.setReg_status (s : State) (r : Reg) (v : Byte) : (s.setReg r v).status = s.status := rfl
@[simp] theorem State.setReg_cfg (s : State) (r : Reg) (v : Byte) : (s.setReg r v).cfg = s.cfg := rfl

@[simp] theorem State.setRegBlock_I (s : State) (bs : List Byte) : (s.setRegBlock bs).I = s.I := rfl
@[simp] theorem State.setRegBlock_pc (s : State) (bs : List Byte) : (s.setRegBlock bs).pc = s.pc := rfl
@[simp] theorem State.setRegBlock_sp (s : State) (bs : List Byte) : (s.setRegBlock bs).sp = s.sp := rfl
@[simp] theorem State.setRegBlock_stack (s : State) (bs : List Byte) : (s.setRegBlock bs).stack = s.stack := rfl
@[simp] theorem State.setRegBlock_DT (s : State) (bs : List Byte) : (s.setRegBlock bs).DT = s.DT := rfl
@[simp] theorem State.setRegBlock_ST (s : State) (bs : List Byte) : (s.setRegBlock bs).ST = s.ST := rfl
@[simp] theorem State.setRegBlock_opcode (s : State) (bs : List Byte) : (s.setRegBlock bs).opcode = s.opcode := rfl
@[simp] theorem State.setRegBlock_rng (s : State) (bs : List Byte) : (s.setRegBlock bs).rng = s.rng := rfl
@[simp] theorem State.setRegBlock_mem (s : State) (bs : List Byte) : (s.setRegBlock bs).mem = s.mem := rfl
@[simp] theorem State.setRegBlock_disp (s : State) (bs : List Byte) : (s.setRegBlock bs).disp = s.disp := rfl
@[simp] theorem State.setRegBlock_key (s : State) (bs : List Byte) : (s.setRegBlock bs).key = s.key := rfl
@[simp] theorem State.setRegBlock_status (s : State) (bs : List Byte) : (s.setRegBlock bs).status = s.status := rfl
@[simp] theorem State.setRegBlock_cfg (s : State) (bs : List Byte) : (s.setRegBlock bs).cfg = s.cfg := rfl

@[simp] theorem State.memWriteBlock_V (s : State) (a : Nat) (bs : List Byte) : (s.memWriteBlock a bs).V = s.V := rfl
@[simp] theorem State.memWriteBlock_I (s : State) (a : Nat) (bs : List Byte) : (s.memWriteBlock a bs).I = s.I := rfl
@[simp] theorem State.memWriteBlock_pc (s : State) (a : Nat) (bs : List Byte) : (s.memWriteBlock a bs).pc = s.pc := rfl
@[simp] theorem State.memWriteBlock_sp (s : State) (a : Nat) (bs : List Byte) : (s.memWriteBlock a bs).sp = s.sp := rfl
@[simp] theorem State.memWriteBlock_stack (s : State) (a : Nat) (bs : List Byte) : (s.memWriteBlock a bs).stack = s.stack := rfl
@[simp] theorem State.memWriteBlock_DT (s : State) (a : Nat) (bs : List Byte) : (s.memWriteBlock a bs).DT = s.DT := rfl
@[simp] theorem State.memWriteBlock_ST (s : State) (a : Nat) (bs : List Byte) : (s.memWriteBlock a bs).ST = s.ST := rfl
@[simp] theorem State.memWriteBlock_opcode (s : State) (a : Nat) (bs : List Byte) : (s.memWriteBlock a bs).opcode = s.opcode := rfl
@[simp] theorem State.memWriteBlock_rng (s : State) (a : Nat) (bs : List Byte) : (s.memWriteBlock a bs).rng = s.rng := rfl
@[simp] theorem State.memWriteBlock_disp (s : State) (a : Nat) (bs : List Byte) : (s.memWriteBlock a bs).disp = s.disp := rfl
@[simp] theorem State.memWriteBlock_key (s : State) (a : Nat) (bs : List Byte) : (s.memWriteBlock a bs).key = s.key := rfl
@[simp] theorem State.memWriteBlock_status (s : State) (a : Nat) (bs : List Byte) : (s.memWriteBlock a bs).status = s.status := rfl
@[simp] theorem State.memWriteBlock_cfg (s : State) (a : Nat) (bs : List Byte) : (s.memWriteBlock a bs).cfg = s.cfg := rfl

@[simp] theorem State.advance_V (s : State) : (s.advance).V = s.V := rfl
@[simp] theorem State.advance_I (s : State) : (s.advance).I = s.I := rfl
@[simp] theorem State.advance_sp (s : State) : (s.advance).sp = s.sp := rfl
@[simp] theorem State.advance_stack (s : State) : (s.advance).stack = s.stack := rfl
@[simp] theorem State.advance_DT (s : State) : (s.advance).DT = s.DT := rfl
@[simp] theorem State.advance_ST (s : State) : (s.advance).ST = s.ST := rfl
@[simp] theorem State.advance_opcode (s : State) : (s.advance).opcode = s.opcode := rfl
@[simp] theorem State.advance_rng (s : State) : (s.advance).rng = s.rng := rfl
@[simp] theorem State.advance_mem (s : State) : (s.advance).mem = s.mem := rfl
@[simp] theorem State.advance_disp (s : State) : (s.advance).disp = s.disp := rfl
@[simp] theorem State.advance_key (s : State) : (s.advance).key = s.key := rfl
@[simp] theorem State.advance_status (s : State) : (s.advance).status = s.status := rfl
@[simp] theorem State.advance_cfg (s : State) : (s.advance).cfg = s.cfg := rfl

@[simp] theorem State.jump_V (s : State) (t : Word) : (s.jump t).V = s.V := rfl
@[simp] theorem State.jump_I (s : State) (t : Word) : (s.jump t).I = s.I := rfl
@[simp] theorem State.jump_sp (s : State) (t : Word) : (s.jump t).sp = s.sp := rfl
@[simp] theorem State.jump_stack (s : State) (t : Word) : (s.jump t).stack = s.stack := rfl
@[simp] theorem State.jump_DT (s : State) (t : Word) : (s.jump t).DT = s.DT := rfl
@[simp] theorem State.jump_ST (s : State) (t : Word) : (s.jump t).ST = s.ST := rfl
@[simp] theorem State.jump_opcode (s : State) (t : Word) : (s.jump t).opcode = s.opcode := rfl
@[simp] theorem State.jump_rng (s : State) (t : Word) : (s.jump t).rng = s.rng := rfl
@[simp] theorem State.jump_mem (s : State) (t : Word) : (s.jump t).mem = s.mem := rfl
@[simp] theorem State.jump_disp (s : State) (t : Word) : (s.jump t).disp = s.disp := rfl
@[simp] theorem State.jump_key (s : State) (t : Word) : (s.jump t).key = s.key := rfl
@[simp] theorem State.jump_status (s : State) (t : Word) : (s.jump t).status = s.status := rfl
@[simp] theorem State.jump_cfg (s : State) (t : Word) : (s.jump t).cfg = s.cfg := rfl

@[simp] theorem State.fetched_V (s : State) : (s.fetched).V = s.V := rfl
@[simp] theorem State.fetched_I (s : State) : (s.fetched).I = s.I := rfl
@[simp] theorem State.fetched_sp (s : State) : (s.fetched).sp = s.sp := rfl
@[simp] theorem State.fetched_stack (s : State) : (s.fetched).stack = s.stack := rfl
@[simp] theorem State.fetched_DT (s : State) : (s.fetched).DT = s.DT := rfl
@[simp] theorem State.fetched_ST (s : State) : (s.fetched).ST = s.ST := rfl
@[simp] theorem State.fetched_rng (s : State) : (s.fetched).rng = s.rng := rfl
@[simp] theorem State.fetched_mem (s : State) : (s.fetched).mem = s.mem := rfl
@[simp] theorem State.fetched_disp (s : State) : (s.fetched).disp = s.disp := rfl
@[simp] theorem State.fetched_key (s : State) : (s.fetched).key = s.key := rfl
@[simp] theorem State.fetched_status (s : State) : (s.fetched).status = s.status := rfl
@[simp] theorem State.fetched_cfg (s : State) : (s.fetched).cfg = s.cfg := rfl

@[simp] theorem State.raise_V (s : State) (k : ErrorKind) (i : Option Nat) : (s.raise k i).V = s.V := rfl
@[simp] theorem State.raise_I (s : State) (k : ErrorKind) (i : Option Nat) : (s.raise k i).I = s.I := rfl
@[simp] theorem State.raise_pc (s : State) (k : ErrorKind) (i : Option Nat) : (s.raise k i).pc = s.pc := rfl
@[simp] theorem State.raise_sp (s : State) (k : ErrorKind) (i : Option Nat) : (s.raise k i).sp = s.sp := rfl
@[simp] theorem State.raise_stack (s : State) (k : ErrorKind) (i : Option Nat) : (s.raise k i).stack = s.stack := rfl
@[simp] theorem State.raise_DT (s : State) (k : ErrorKind) (i : Option Nat) : (s.raise k i).DT = s.DT := rfl
@[simp] theorem State.raise_ST (s : State) (k : ErrorKind) (i : Option Nat) : (s.raise k i).ST = s.ST := rfl
@[simp] theorem State.raise_opcode (s : State) (k : ErrorKind) (i : Option Nat) : (s.raise k i).opcode = s.opcode := rfl
@[simp] theorem State.raise_rng (s : State) (k : ErrorKind) (i : Option Nat) : (s.raise k i).rng = s.rng := rfl
@[simp] theorem State.raise_mem (s : State) (k : ErrorKind) (i : Option Nat) : (s.raise k i).mem = s.mem := rfl
@[simp] theorem State.raise_disp (s : State) (k : ErrorKind) (i : Option Nat) : (s.raise k i).disp = s.disp := rfl
@[simp] theorem State.raise_key (s : State) (k : ErrorKind) (i : Option Nat) : (s.raise k i).key = s.key := rfl
@[simp] theorem State.raise_cfg (s : State) (k : ErrorKind) (i : Option Nat) : (s.raise k i).cfg = s.cfg := rfl

@[simp] theorem State.push_V (s : State) (h : s.sp.val < 16) : (s.push h).V = s.V := rfl
@[simp] theorem State.push_I (s : State) (h : s.sp.val < 16) : (s.push h).I = s.I := rfl
@[simp] theorem State.push_pc (s : State) (h : s.sp.val < 16) : (s.push h).pc = s.pc := rfl
@[simp] theorem State.push_DT (s : State) (h : s.sp.val < 16) : (s.push h).DT = s.DT := rfl
@[simp] theorem State.push_ST (s : State) (h : s.sp.val < 16) : (s.push h).ST = s.ST := rfl
@[simp] theorem State.push_opcode (s : State) (h : s.sp.val < 16) : (s.push h).opcode = s.opcode := rfl
@[simp] theorem State.push_rng (s : State) (h : s.sp.val < 16) : (s.push h).rng = s.rng := rfl
@[simp] theorem State.push_mem (s : State) (h : s.sp.val < 16) : (s.push h).mem = s.mem := rfl
@[simp] theorem State.push_disp (s : State) (h : s.sp.val < 16) : (s.push h).disp = s.disp := rfl
@[simp] theorem State.push_key (s : State) (h : s.sp.val < 16) : (s.push h).key = s.key := rfl
@[simp] theorem State.push_status (s : State) (h : s.sp.val < 16) : (s.push h).status = s.status := rfl
@[simp] theorem State.push_cfg (s : State) (h : s.sp.val < 16) : (s.push h).cfg = s.cfg := rfl

@[simp] theorem State.pop_V (s : State) : (s.pop).V = s.V := rfl
@[simp] theorem State.pop_I (s : State) : (s.pop).I = s.I := rfl
@[simp] theorem State.pop_stack (s : State) : (s.pop).stack = s.stack := rfl
@[simp] theorem State.pop_DT (s : State) : (s.pop).DT = s.DT := rfl
@[simp] theorem State.pop_ST (s : State) : (s.pop).ST = s.ST := rfl
@[simp] theorem State.pop_opcode (s : State) : (s.pop).opcode = s.opcode := rfl
@[simp] theorem State.pop_rng (s : State) : (s.pop).rng = s.rng := rfl
@[simp] theorem State.pop_mem (s : State) : (s.pop).mem = s.mem := rfl
@[simp] theorem State.pop_disp (s : State) : (s.pop).disp = s.disp := rfl
@[simp] theorem State.pop_key (s : State) : (s.pop).key = s.key := rfl
@[simp] theorem State.pop_status (s : State) : (s.pop).status = s.status := rfl
@[simp] theorem State.pop_cfg (s : State) : (s.pop).cfg = s.cfg := rfl

@[simp] theorem State.ticked_V (s : State) : (s.ticked).V = s.V := rfl
@[simp] theorem State.ticked_I (s : State) : (s.ticked).I = s.I := rfl
@[simp] theorem State.ticked_pc (s : State) : (s.ticked).pc = s.pc := rfl
@[simp] theorem State.ticked_sp (s : State) : (s.ticked).sp = s.sp := rfl
@[simp] theorem State.ticked_stack (s : State) : (s.ticked).stack = s.stack := rfl
@[simp] theorem State.ticked_opcode (s : State) : (s.ticked).opcode = s.opcode := rfl
@[simp] theorem State.ticked_rng (s : State) : (s.ticked).rng = s.rng := rfl
@[simp] theorem State.ticked_mem (s : State) : (s.ticked).mem = s.mem := rfl
@[simp] theorem State.ticked_disp (s : State) : (s.ticked).disp = s.disp := rfl
@[simp] theorem State.ticked_key (s : State) : (s.ticked).key = s.key := rfl
@[simp] theorem State.ticked_status (s : State) : (s.ticked).status = s.status := rfl
@[simp] theorem State.ticked_cfg (s : State) : (s.ticked).cfg = s.cfg := rfl

@[simp] theorem State.jump_pc (s : State) (t : Word) : (s.jump t).pc = t := rfl
@[simp] theorem State.advance_pc (s : State) : s.advance.pc = s.pc + 2 := rfl
@[simp] theorem State.fetched_pc (s : State) : s.fetched.pc = s.pc + 2 := rfl
@[simp] theorem State.fetched_opcode (s : State) : s.fetched.opcode = s.fetchWord := rfl
@[simp] theorem State.raise_status (s : State) (k : ErrorKind) (i : Option Nat) :
    (s.raise k i).status = .halted (s.errorRecord k i) := rfl
@[simp] theorem State.memWriteBlock_mem (s : State) (a : Nat) (bs : List Byte) :
    (s.memWriteBlock a bs).mem = s.mem.writeBlock a bs := rfl
@[simp] theorem State.push_sp (s : State) (h : s.sp.val < 16) : (s.push h).sp.val = s.sp.val + 1 := rfl
@[simp] theorem State.pop_sp (s : State) : s.pop.sp.val = s.sp.val - 1 := rfl

/-- A register read after a register write. -/
theorem State.reg_setReg (s : State) (r q : Reg) (v : Byte) :
    (s.setReg r v).reg q = if q = r then v else s.reg q := by
  simp only [State.reg, State.setReg, Vector.get_eq_getElem, Vector.getElem_set, Fin.ext_iff, eq_comm]

@[simp] theorem State.reg_setReg_same (s : State) (r : Reg) (v : Byte) : (s.setReg r v).reg r = v := by
  simp [State.reg_setReg]

theorem State.reg_setReg_ne (s : State) {r q : Reg} (v : Byte) (h : q ≠ r) : (s.setReg r v).reg q = s.reg q := by
  simp [State.reg_setReg, h]

/-- A write of a register changes the register file only. -/
theorem State.setReg_frame (s : State) (r : Reg) (v : Byte) : s.setReg r v = { s with V := (s.setReg r v).V } := rfl

/-- Registers read after Fx65's block write: the bytes the list reaches, the old values above. -/
theorem State.reg_setRegBlock (s : State) (bs : List Byte) (q : Reg) :
    (s.setRegBlock bs).reg q = bs.getD q.val (s.reg q) := by
  simp [State.reg, State.setRegBlock, Vector.get_eq_getElem]

/-- Two register files that read alike are equal. -/
theorem State.V_ext {s t : State} (h : ∀ r, s.reg r = t.reg r) : s.V = t.V := by
  apply Vector.ext
  intro i hi
  exact h ⟨i, hi⟩

/-- A taken skip adds 2 to pc, one not taken changes nothing (rule R160). -/
theorem State.skipIf_eq (s : State) (c : Bool) :
    s.skipIf c = { s with pc := if c = true then s.pc + 2 else s.pc } := by
  cases c <;> rfl

/-- The two writes of rule R121 touch the register file only. -/
theorem State.writeFlagResult_frame (s : State) (x : Reg) (res f : Byte) :
    s.writeFlagResult x res f = { s with V := (s.writeFlagResult x res f).V } := by
  unfold State.writeFlagResult
  split <;> rfl

/-- Every register after the two writes of rule R121. -/
theorem State.reg_writeFlagResult (s : State) (x q : Reg) (res f : Byte) :
    (s.writeFlagResult x res f).reg q =
      if q = VF ∧ (q = x → s.cfg.vfOrder = .resultThenFlag) then f else if q = x then res else s.reg q := by
  unfold State.writeFlagResult
  split <;> rename_i h <;> simp only [State.reg_setReg, h]
  · by_cases h1 : q = x <;> by_cases h2 : q = VF <;> simp [h1, h2]
    rw [if_neg (h2 ▸ h1), if_neg (h2 ▸ h1)]
  · by_cases h1 : q = x <;> by_cases h2 : q = VF <;> simp [h1, h2]

end Sys2Proof.Machine
end

