-- ==== Sys2Proof/Laws/Step.lean ====
section
/-! SUPPORT. What a step can do, said once: its three cases, that every meaning answers a next state, and that a placed word is fetched. -/

namespace Sys2Proof.Machine

theorem step_of_running {s : State} (h : s.status = .running) : step s = dispatch (decodeWord s.fetchWord) s.fetched := by
  unfold step
  split
  · rename_i e he
    rw [h] at he
    cases he
  · rfl

theorem step_of_halted {s : State} {e : ErrorRecord} (h : s.status = .halted e) : step s = .fault (.halted e) := by
  unfold step
  split
  · rename_i e' he
    rw [h] at he
    rw [Status.halted.inj he]
  · rename_i he
    rw [h] at he
    cases he

theorem tick_of_running {s : State} (h : s.status = .running) : tick s = .next s.ticked := by
  unfold tick
  split
  · rename_i e he
    rw [h] at he
    cases he
  · rfl

theorem setKeypad_of_running {s : State} (k : Vector Bool 16) (h : s.status = .running) :
    setKeypad k s = .next { s with key := k } := by
  unfold setKeypad
  split
  · rename_i e he
    rw [h] at he
    cases he
  · rfl

/-- Running no operation leaves the session. -/
@[simp] theorem Session.runAll_nil (s : Session) : Session.runAll [] s = some s := rfl

/-- A list of operations runs from s when its first one is enabled there and the rest run from the session it leaves. -/
theorem Session.runAll_cons {op : HostOp} {ops : List HostOp} {s v : Session} :
    Session.runAll (op :: ops) s = some v ↔ ∃ u r, Session.run op s = some (u, r) ∧ Session.runAll ops u = some v := by
  rw [Session.runAll]
  cases Session.run op s <;> simp [Prod.ext_iff]

/-- `load` of a ROM that fits (rule R323). -/
theorem loadRom_of_le {bytes : List Byte} (h : bytes.length ≤ maxRomLength) (s : State) :
    loadRom bytes s = .ok (s.memWriteBlock programStart.toNat bytes) :=
  if_neg (Nat.not_lt.mpr h)

/-- `load` of a ROM that does not (rule R323). -/
theorem loadRom_of_gt {bytes : List Byte} (h : bytes.length > maxRomLength) (s : State) :
    loadRom bytes s = .error (romTooLarge bytes.length) :=
  if_pos h

@[simp] theorem runSteps_zero (s : State) : runSteps 0 s = .next s := rfl

/-- A first step that returns Ok leaves the other n to run (rule R321). -/
theorem runSteps_succ_of_running {s t : State} (n : Nat) (h : step s = .next t) (hr : t.status = .running) :
    runSteps (n + 1) s = runSteps n t := by
  rw [runSteps, h]
  exact if_pos hr

/-- A first step that returns Err is the last (rule R321). -/
theorem runSteps_succ_of_halted {s t : State} (n : Nat) (h : step s = .next t) (hr : t.status ≠ .running) :
    runSteps (n + 1) s = .next t := by
  rw [runSteps, h]
  exact if_neg hr

/-- A countdown is a subtraction that stops at 0 (rule R230). -/
theorem toNat_countdown (t : Byte) : (countdown t).toNat = t.toNat - 1 := by
  unfold countdown
  split <;> bv_omega

/-- During the execute stage pc - 2 is the fetch address (rules R102, R105). -/
@[simp] theorem State.fetched_fetchAddr (s : State) : s.fetched.fetchAddr = s.pc := by
  simp [State.fetchAddr]

@[simp] theorem State.fetched_reg (s : State) (r : Reg) : s.fetched.reg r = s.reg r := rfl

/-- A step that answers a next state ran from a running state, and either raised UnknownOpcode or ran the decoded
instruction. -/
theorem step_cases {s t : State} (h : step s = .next t) : s.status = .running ∧
    ((∃ e, decodeWord s.fetchWord = .error e ∧ t = s.fetched.raise .unknownOpcode none) ∨
      ∃ i, decodeWord s.fetchWord = .ok i ∧ exec i s.fetched = .next t) := by
  cases hr : s.status with
  | halted e =>
    rw [step_of_halted hr] at h
    cases h
  | running =>
    rw [step_of_running hr] at h
    refine ⟨rfl, ?_⟩
    cases hd : decodeWord s.fetchWord with
    | error e =>
      rw [hd] at h
      exact .inl ⟨e, rfl, (Host.Outcome.next.inj h).symm⟩
    | ok i =>
      rw [hd] at h
      exact .inr ⟨i, rfl, h⟩

/-- Every meaning answers a next state: "No step is refused" (rule R106). -/
theorem exec_next (i : Instr) (s : State) : ∃ t, exec i s = .next t := by
  cases i
  case ret => simp only [exec, execRet]; split <;> exact ⟨_, rfl⟩
  case call => simp only [exec, execCall]; split <;> exact ⟨_, rfl⟩
  case skp => simp only [exec, execSkp]; split <;> exact ⟨_, rfl⟩
  case sknp => simp only [exec, execSknp]; split <;> exact ⟨_, rfl⟩
  case ldVxK => simp only [exec, execLdVxK]; split <;> exact ⟨_, rfl⟩
  all_goals exact ⟨_, rfl⟩

/-- The two bytes of a word stored at a, read back big-endian (rule R52). -/
theorem wordOfBytes_read_wordBytes {m : Memory} (h : m.wf = true) (a : Nat) (w : Word) :
    wordOfBytes ((m.writeBlock a (wordBytes w)).read (maskAddr a)) ((m.writeBlock a (wordBytes w)).read (maskAddr (a + 1))) = w := by
  have h0 := Memory.read_writeBlock_at h (a := a) (i := 0) (bs := wordBytes w) (by simp [wordBytes]) (by simp [wordBytes])
  have h1 := Memory.read_writeBlock_at h (a := a) (i := 1) (bs := wordBytes w) (by simp [wordBytes]) (by simp [wordBytes])
  rw [Nat.add_zero] at h0
  rw [h0, h1]
  exact wordOfBytes_high_low w

/-- withFetchWord places the word that the next step fetches. -/
theorem State.fetchWord_withFetchWord {s : State} (h : s.mem.wf = true) (nbits w : Nat) :
    (s.withFetchWord nbits w).fetchWord = BitVec.ofNat 16 (w % 2 ^ nbits) :=
  wordOfBytes_read_wordBytes h s.pc.toNat _

/-- A key value above 15 names no key (rule R220). -/
theorem keyIndex_eq_none {v : Byte} : keyIndex v = none ↔ v.toNat > 15 := by
  unfold keyIndex
  split <;> simp <;> omega

theorem keyIndex_eq_some {v : Byte} {k : Fin 16} : keyIndex v = some k ↔ v.toNat = k.val := by
  unfold keyIndex
  split
  · simp [Fin.ext_iff]
  · simp
    omega

end Sys2Proof.Machine
end

