-- ==== Sys2Proof/Tests/Slice0.lean ====
section
/-! SUPPORT. Tests. Expected values are from spec/95_test_vectors.md (the vector is named), from spec/30_encoding.md, or worked out by hand from the rule named; witnesses meet the hypotheses of the statements. -/

namespace Sys2Proof.Tests

open Sys2Proof
open Sys2Proof.Machine

/-- The reset state with an empty memory. -/
def bare : State := { State.reset with mem := [] }

/-- The state an outcome carries; the reset state where it carries none. -/
def after : Host.Outcome State Fault Refusal → State
  | .next t => t
  | .fault _ => State.reset
  | .refused _ => State.reset

/-- The bare machine about to run the word w. -/
def before (w : Nat) : State := bare.withFetchWord 16 w

/-- One step on the word w, placed at pc. -/
def run (s : State) (w : Nat) : State := after (step (s.withFetchWord 16 w))

/-- The registers V1, V2 and VF set. -/
def regs12F (a b f : Byte) : State := ((bare.setReg 1 a).setReg 2 b).setReg VF f

/-- The result of an 8xy_ word on V1 and V2: V1 and VF after it. -/
def v1vf (a b : Byte) (w : Nat) : Byte × Byte := ((run (regs12F a b 7) w).reg 1, (run (regs12F a b 7) w).reg VF)

/-- VF after an 8xy_ word with x = 15, VF and V2 given, under one setting of VF_ORDER. -/
def vfAfter (o : VfOrder) (f b : Byte) (w : Nat) : Byte := (run ((regs12F 0 b f).withVfOrder o) w).reg VF

/-- pc after the word w at A, with V1, V2 and V3 given. -/
def pcAfter (A : Word) (a b c : Byte) (w : Nat) : Word := (run { (regs12F a b 0).setReg 3 c with pc := A } w).pc

/-! ### Well-formedness: an ill-formed term for each check -/

theorem test_field_reg_refused : (Field.mk 4 16).fits = false ∧ (Field.mk 4 15).fits = true := by decide
theorem test_field_byte_refused : (Field.mk 8 256).fits = false ∧ (Field.mk 8 255).fits = true := by decide
theorem test_field_addr_refused : (Field.mk 12 4096).fits = false ∧ (Field.mk 12 4095).fits = true := by decide

/-- DEC-6 of the test vectors: one Unknown word and more for each region of rule R82. -/
theorem test_words_refused :
    [0x00E1, 0x01E0, 0x0123, 0x5001, 0x8008, 0x800F, 0x9001, 0xE000, 0xE09F, 0xF000, 0xF056, 0xFFFF].all
      (fun w => !wordIsLegal w) = true := by decide

/-- DEC-7: the legal words beside them. -/
theorem test_words_legal : [0x00E0, 0x00EE, 0x5000, 0x9000, 0x8FF6, 0x80F6].all wordIsLegal = true := by decide

theorem test_font_base_refused :
    Config.wf ⟨.flagThenResult, 0x1B1⟩ = false ∧ Config.wf ⟨.flagThenResult, 0x1B0⟩ = true := by decide

/-! ### Decoding: every constructor, from words written out of rule R80's patterns -/

theorem test_decode_fixed : decodeWord 0x00E0 = .ok .cls ∧ decodeWord 0x00EE = .ok .ret := by decide
theorem test_decode_nnn : decodeWord 0x1ABC = .ok (.jp 0xABC) ∧ decodeWord 0x2DEF = .ok (.call 0xDEF) ∧
    decodeWord 0xA2F0 = .ok (.ldI 0x2F0) ∧ decodeWord 0xB123 = .ok (.jpV0 0x123) := by decide
theorem test_decode_xkk : decodeWord 0x3305 = .ok (.seImm 3 0x05) ∧ decodeWord 0x4AFE = .ok (.sneImm 0xA 0xFE) ∧
    decodeWord 0x6A2F = .ok (.ldImm 0xA 0x2F) ∧ decodeWord 0x7105 = .ok (.addImm 1 0x05) ∧
    decodeWord 0xC3FF = .ok (.rnd 3 0xFF) := by decide
theorem test_decode_xyf : decodeWord 0x5120 = .ok (.seReg 1 2) ∧ decodeWord 0x8120 = .ok (.ldReg 1 2) ∧
    decodeWord 0x8341 = .ok (.orReg 3 4) ∧ decodeWord 0x8562 = .ok (.andReg 5 6) ∧ decodeWord 0x8783 = .ok (.xorReg 7 8) ∧
    decodeWord 0x89A4 = .ok (.addReg 9 0xA) ∧ decodeWord 0x8BC5 = .ok (.subReg 0xB 0xC) := by decide
theorem test_decode_xyf_shifts : decodeWord 0x8DE6 = .ok (.shr 0xD 0xE) ∧ decodeWord 0x8F07 = .ok (.subn 0xF 0) ∧
    decodeWord 0x812E = .ok (.shl 1 2) ∧ decodeWord 0x9340 = .ok (.sneReg 3 4) := by decide
theorem test_decode_xyn : decodeWord 0xD12F = .ok (.drw 1 2 0xF) := by decide
theorem test_decode_xff : decodeWord 0xE49E = .ok (.skp 4) ∧ decodeWord 0xE5A1 = .ok (.sknp 5) ∧
    decodeWord 0xF607 = .ok (.ldVxDT 6) ∧ decodeWord 0xF70A = .ok (.ldVxK 7) ∧ decodeWord 0xF815 = .ok (.ldDTVx 8) ∧
    decodeWord 0xF918 = .ok (.ldSTVx 9) ∧ decodeWord 0xFA1E = .ok (.addI 0xA) ∧ decodeWord 0xFB29 = .ok (.ldF 0xB) ∧
    decodeWord 0xFC33 = .ok (.ldB 0xC) ∧ decodeWord 0xFD55 = .ok (.storeRegs 0xD) ∧ decodeWord 0xFE65 = .ok (.loadRegs 0xE) := by
  decide
theorem test_decode_bytes : decodeBytes [0x12, 0x34, 0x99] = .ok (.jp 0x234, [0x99]) ∧
    decodeBytes [0x12] = .error .truncated ∧ decodeBytes [0x50, 0x01] = .error (.unknown 0x5001) := by decide
theorem test_decode_table_word : decodeTableWord 16 0xD12F = some (.drw 1 2 0xF) ∧ decodeTableWord 16 0x5001 = none := by decide

/-! ### Assembler text, as the programs of spec/95_test_vectors.md write it -/

theorem test_assembly_text : (Instr.seImm 1 0).assembly.text = "SE V1, 0x00".toList ∧
    (Instr.call 0x20E).assembly.text = "CALL 0x20E".toList ∧ (Instr.loadRegs 2).assembly.text = "LD V2, [I]".toList := by decide
/-- P3: 8A0E is SHL VA. -/
theorem test_assembly_shift : (Instr.shl 0xA 0).assembly.text = "SHL VA".toList ∧
    ((AsmForm.mk "SHL" [.reg 0xA]).assemble.map encode) = some 0x8A0E := by decide
theorem test_data_byte : dataByteText 0x3C = "DB 0x3C".toList := by decide

/-! ### Reset (rules R37, R38) -/

theorem test_reset_registers : State.reset.pc = 0x200 ∧ State.reset.sp = 0 ∧ State.reset.rng = 1 ∧
    State.reset.status = .running := by decide
/-- Glyph A of rule R37 at 0x050 + 50. -/
theorem test_reset_font : State.reset.memReadBlock 0x082 5 = [0xF0, 0x90, 0xF0, 0x90, 0x90] := by decide
theorem test_reset_memory_wf : State.reset.mem.wf = true := by decide
theorem test_zero_seed_is_one : seedRng 0 = 1 := by decide

/-! ### The step (DEC-1 to DEC-5, DEC-9) -/

theorem test_step_fetches : (run State.reset 0x1234).opcode = 0x1234 ∧ (run State.reset 0x1234).pc = 0x0234 := by decide
/-- DEC-2: the fetch at 0xFFF takes its second byte from 0x000. -/
theorem test_fetch_wraps : (after (step { bare with pc := 0x0FFF, mem := [(0xFFF, 0x60)] })).opcode = 0x6000 ∧
    (after (step { bare with pc := 0x0FFF, mem := [(0xFFF, 0x60)] })).pc = 0x1001 := by decide
/-- DEC-3: an odd pc is legal. -/
theorem test_odd_pc : (run { bare with pc := 0x203 } 0x612A).reg 1 = 0x2A ∧ (run { bare with pc := 0x203 } 0x612A).pc = 0x205 := by
  decide
/-- DEC-4, P7: zeroed memory is Unknown. -/
theorem test_unknown_halts : after (step bare) =
    { bare with opcode := 0, pc := 0x202, status := .halted ⟨.unknownOpcode, some 0, some 0x200, none⟩ } := by decide
/-- DEC-9. -/
theorem test_halted_has_no_step :
    (match step (after (step bare)) with | .fault (.halted e) => e.code | _ => 0) = 1 ∧
    (match tick (after (step bare)) with | .fault (.halted e) => e.code | _ => 0) = 1 := by decide

/-! ### Arithmetic and logic (AL-1 to AL-35) -/

theorem test_ldImm : (run bare 0x6A2F).reg 0xA = 0x2F := by decide
theorem test_addImm_wraps : v1vf 0xFE 0 0x7105 = (0x03, 7) := by decide
theorem test_addImm_vf : (run (regs12F 0 0 1) 0x7FFF).reg VF = 0 := by decide
theorem test_ldReg : v1vf 0 0x7C 0x8120 = (0x7C, 7) := by decide
theorem test_orReg : v1vf 0xF0 0x0F 0x8121 = (0xFF, 7) := by decide
theorem test_andReg : v1vf 0xF0 0x3C 0x8122 = (0x30, 7) := by decide
theorem test_xorReg : v1vf 0xF0 0x3C 0x8123 = (0xCC, 7) ∧ v1vf 0x5A 0 0x8113 = (0, 7) := by decide
theorem test_addReg_carry : v1vf 0xFF 0x01 0x8124 = (0, 1) ∧ v1vf 0x7F 0x80 0x8124 = (0xFF, 0) := by decide
theorem test_addReg_self : v1vf 0x80 0 0x8114 = (0, 1) ∧ v1vf 0xFF 0xFF 0x8124 = (0xFE, 1) := by decide
theorem test_subReg : v1vf 0x05 0x03 0x8125 = (2, 1) ∧ v1vf 0x05 0x05 0x8125 = (0, 0) := by decide
theorem test_subReg_wraps : v1vf 0x00 0x01 0x8125 = (0xFF, 0) ∧ v1vf 0xFF 0x00 0x8125 = (0xFF, 1) := by decide
theorem test_subn : v1vf 0x03 0x05 0x8127 = (2, 1) ∧ v1vf 0x01 0x00 0x8127 = (0xFF, 0) := by decide
theorem test_shr : v1vf 0x03 0xFF 0x8126 = (1, 1) ∧ v1vf 0x80 0xFF 0x8126 = (0x40, 0) := by decide
theorem test_shl : v1vf 0x81 0 0x812E = (2, 1) ∧ v1vf 0x7F 0 0x812E = (0xFE, 0) := by decide
/-- AL-30 to AL-35, the default order. -/
theorem test_vf_flag_then_result : [vfAfter .flagThenResult 0x10 0x20 0x8F24, vfAfter .flagThenResult 0x10 0x01 0x8F25,
    vfAfter .flagThenResult 0x01 0x10 0x8F27, vfAfter .flagThenResult 0x04 0 0x8F26, vfAfter .flagThenResult 0x81 0 0x8F2E] =
    [0x30, 0x0F, 0x0F, 0x02, 0x02] := by decide
/-- AL-30 to AL-35, the other order. -/
theorem test_vf_result_then_flag : [vfAfter .resultThenFlag 0x10 0x20 0x8F24, vfAfter .resultThenFlag 0x10 0x01 0x8F25,
    vfAfter .resultThenFlag 0x01 0x10 0x8F27, vfAfter .resultThenFlag 0x04 0 0x8F26, vfAfter .resultThenFlag 0x81 0 0x8F2E] =
    [0, 1, 1, 0, 1] := by decide
/-- RNG-1, R133's example, and RNG-3: kk = 0 still advances. -/
theorem test_rnd : (run bare 0xC3FF).reg 3 = 0x21 ∧ (run bare 0xC3FF).rng = 0x00042021 ∧ (run bare 0xC30F).reg 3 = 1 := by decide
theorem test_rnd_zero_mask : (run bare 0xC200).reg 2 = 0 ∧ (run bare 0xC200).rng = 0x00042021 := by decide
/-- RNG-4, RNG-5. -/
theorem test_rng_streams :
    [rngByte (rngAdvance 0x12345678), rngByte (rngAdvance (rngAdvance 0x12345678)), rngByte (rngAdvance 0xDEADBEEF)] =
    [0xA5, 0xA3, 0xB7] := by decide

/-! ### Control flow (CF-1 to CF-15) -/

/-- CF-2. -/
theorem test_call : (run bare 0x2300).stack.get 0 = 0x202 ∧ (run bare 0x2300).sp = 1 ∧ (run bare 0x2300).pc = 0x300 := by decide
/-- CF-5. -/
theorem test_call_overflow : (run { bare with sp := 16, pc := 0x300 } 0x2400).status =
    .halted ⟨.stackOverflow, some 0x2400, some 0x300, none⟩ ∧ (run { bare with sp := 16, pc := 0x300 } 0x2400).sp = 16 := by decide
/-- CF-3: the entry stays. -/
theorem test_ret : (run { bare with sp := 1, stack := bare.stack.set 0 0x204 } 0x00EE).pc = 0x204 ∧
    (run { bare with sp := 1, stack := bare.stack.set 0 0x204 } 0x00EE).stack.get 0 = 0x204 := by decide
/-- CF-4. -/
theorem test_ret_underflow : (run bare 0x00EE).status = .halted ⟨.stackUnderflow, some 0x00EE, some 0x200, none⟩ ∧
    (run bare 0x00EE).pc = 0x202 := by decide
theorem test_seImm : pcAfter 0x210 0 0 5 0x3305 = 0x214 ∧ pcAfter 0x210 0 0 5 0x3306 = 0x212 := by decide
theorem test_sneImm : pcAfter 0x210 0 0 5 0x4305 = 0x212 ∧ pcAfter 0x210 0 0 5 0x4306 = 0x214 := by decide
theorem test_seReg : pcAfter 0x200 0x10 0x10 0 0x5120 = 0x204 ∧ pcAfter 0x200 0x10 0x11 0 0x5120 = 0x202 := by decide
theorem test_sneReg : pcAfter 0x200 0x10 0x11 0 0x9120 = 0x204 ∧ pcAfter 0x200 0x10 0 0 0x9110 = 0x202 := by decide
/-- CF-13: the sum is not masked. -/
theorem test_jpV0 : (run (bare.setReg 0 0x04) 0xB300).pc = 0x304 ∧ (run (bare.setReg 0 0xFF) 0xBFFF).pc = 0x10FE := by decide
/-- CF-15, and the skip at the top of the 16-bit pc by hand from rule R160. -/
theorem test_skip_wraps : pcAfter 0x0FFE 0 0 0 0x3000 = 0x1002 ∧ pcAfter 0xFFFE 0 0 0 0x3000 = 2 := by decide

/-! ### Index and memory transfer (MT-1 to MT-15) -/

theorem test_ldI : (run bare 0xA2F0).I = 0x2F0 := by decide
theorem test_addI : (run ({ bare with I := 0xFFFF }.setReg 0 2) 0xF01E).I = 1 ∧
    (run ({ bare with I := 0x0FFF }.setReg 0 1) 0xF01E).I = 0x1000 := by decide
theorem test_ldF : (run (bare.setReg 5 0x0A) 0xF529).I = 0x82 ∧ (run (bare.setReg 0 0xFF) 0xF029).I = 0x54B := by decide
theorem test_ldB : (run ({ bare with I := 0x300 }.setReg 0 157) 0xF033).memReadBlock 0x300 3 = [1, 5, 7] := by decide
/-- MT-9. -/
theorem test_ldB_wraps : (run ({ bare with I := 0xFFE }.setReg 0 0xFF) 0xF033).memReadBlock 0xFFE 3 = [2, 5, 5] ∧
    (run ({ bare with I := 0xFFE }.setReg 0 0xFF) 0xF033).memRead 0 = 5 := by decide
/-- MT-10. -/
theorem test_storeRegs : (run ({ bare.setReg 0 0x11 with I := 0x400 }.setReg 1 0x22) 0xF155).memReadBlock 0x400 3 = [0x11, 0x22, 0] ∧
    (run ({ bare.setReg 0 0x11 with I := 0x400 }.setReg 1 0x22) 0xF155).I = 0x400 := by decide
/-- MT-13. -/
theorem test_storeRegs_wraps : (run ({ bare.setReg 0 0xAA with I := 0xFFF }.setReg 1 0xBB) 0xF155).memRead 0xFFF = 0xAA ∧
    (run ({ bare.setReg 0 0xAA with I := 0xFFF }.setReg 1 0xBB) 0xF155).memRead 0x000 = 0xBB := by decide
/-- MT-14. -/
theorem test_loadRegs : ((run ({ bare with I := 0x400, mem := [(0x400, 0x11), (0x401, 0x22), (0x402, 0x33)] }.setReg 3 0x77) 0xF265).V.toList.take 4) =
    [0x11, 0x22, 0x33, 0x77] := by decide
/-- MT-15. -/
theorem test_loadRegs_vf : (run { bare with I := 0x400, mem := [(0x40F, 0x5A)] } 0xFF65).reg VF = 0x5A := by decide

/-! ### Keypad and timers (KT-1 to KT-10, TICK-1 to TICK-3) -/

/-- Key A pressed, V4 given, at 0x220. -/
def keyA (v : Byte) : State := { bare.setReg 4 v with pc := 0x220, key := bare.key.set 0xA true }

theorem test_skp : (run (keyA 0x0A) 0xE49E).pc = 0x224 ∧ (run (keyA 0x0B) 0xE49E).pc = 0x222 := by decide
theorem test_sknp : (run (keyA 0x0A) 0xE4A1).pc = 0x222 ∧ (run (keyA 0x0B) 0xE4A1).pc = 0x224 := by decide
/-- KT-3, KT-4. -/
theorem test_key_index : (run (keyA 0x10) 0xE49E).status = .halted ⟨.invalidKeyIndex, some 0xE49E, some 0x220, some 0x10⟩ ∧
    (run (keyA 0xFF) 0xE4A1).status = .halted ⟨.invalidKeyIndex, some 0xE4A1, some 0x220, some 0xFF⟩ := by decide
/-- KT-5. -/
theorem test_ldVxK : (run { bare with key := (bare.key.set 7 true).set 3 true } 0xF50A).reg 5 = 3 ∧
    (run { bare with key := (bare.key.set 7 true).set 3 true } 0xF50A).pc = 0x202 := by decide
/-- KT-6. -/
theorem test_ldVxK_spins : (run { bare.setReg 5 9 with pc := 0x230 } 0xF50A).pc = 0x230 ∧
    (run { bare.setReg 5 9 with pc := 0x230 } 0xF50A).reg 5 = 9 := by decide
theorem test_timers : (run { bare with DT := 0x3C } 0xF307).reg 3 = 0x3C ∧ (run (bare.setReg 3 0x3C) 0xF315).DT = 0x3C ∧
    (run (bare.setReg 3 5) 0xF318).ST = 5 := by decide
theorem test_tick : (after (tick { bare with DT := 2 })).DT = 1 ∧ (after (tick { bare with DT := 2 })).ST = 0 ∧
    (after (tick { bare with DT := 1, ST := 1 })).ST = 0 := by decide

/-! ### Display (DRW-1 to DRW-10) -/

/-- A state with V0 and V1, sprite bytes at 0x300, and a display. -/
def canvas (a b : Byte) (sprite : List Byte) (d : Display) : State :=
  ({ (bare.setReg 0 a) with I := 0x300, disp := d }.setReg 1 b).memWriteBlock 0x300 sprite

/-- Row 0 with columns 0 to 7 on. -/
def eightOn : Display := Display.blank.set 0 0xFF00000000000000

/-- DRW-1, the first draw and the second. -/
theorem test_draw : (run (canvas 0 0 [0xFF] Display.blank) 0xD011).disp = eightOn ∧
    (run (canvas 0 0 [0xFF] Display.blank) 0xD011).reg VF = 0 := by decide
theorem test_draw_again : (run (canvas 0 0 [0xFF] eightOn) 0xD011).disp = Display.blank ∧
    (run (canvas 0 0 [0xFF] eightOn) 0xD011).reg VF = 1 := by decide
/-- DRW-2: the start wraps. -/
theorem test_draw_start_wraps : (run (canvas 70 33 [0x80] Display.blank) 0xD011).disp.cell 6 1 = true := by decide
/-- DRW-3, DRW-4: the edges clip. -/
theorem test_draw_clips : (run (canvas 60 0 [0xFF] Display.blank) 0xD011).disp.row 0 = 0xF ∧
    (run (canvas 0 31 [0xFF, 0xFF] Display.blank) 0xD012).disp = Display.blank.set 31 0xFF00000000000000 := by decide
/-- DRW-5. -/
theorem test_draw_no_rows : (run ((canvas 0 0 [0xFF] eightOn).setReg VF 1) 0xD010).reg VF = 0 ∧
    (run ((canvas 0 0 [0xFF] eightOn).setReg VF 1) 0xD010).disp = eightOn := by decide
/-- DRW-6: the start column is the old VF. -/
theorem test_draw_from_vf : (run ((canvas 0 0 [0x80] Display.blank).setReg VF 5) 0xDF11).disp.cell 5 0 = true ∧
    (run ((canvas 0 0 [0x80] Display.blank).setReg VF 5) 0xDF11).reg VF = 0 := by decide
/-- DRW-9: the second row comes from 0x000. -/
theorem test_draw_memory_wraps :
    (run { bare with I := 0xFFF, mem := [(0, 0x80), (0xFFF, 0x80)] } 0xD012).disp.cell 0 1 = true := by decide
/-- DRW-10. -/
theorem test_cls : (run (canvas 0 0 [] eightOn) 0x00E0).disp = Display.blank := by decide
/-- Rule R253, by hand: cell (9, 0) is at flat index 9 and is bit 6 of byte 1. -/
theorem test_export : (Display.blank.flip 9 0).packedByte 0 1 = 0x40 ∧ (Display.blank.flip 9 0).cell 9 0 = true := by decide

/-! ### The host (LOAD-1 to LOAD-3, rule R297) -/

theorem test_load_short : (match loadRom [0x12, 0x34] bare with | .ok t => t.fetchWord | .error _ => 0) = 0x1234 := by decide
/-- S9: the last byte of a 3584-byte ROM is at 0xFFF; one byte more is too long. -/
theorem test_load_bounds : programStart.toNat + (maxRomLength - 1) = 0xFFF ∧ maxRomLength = 4096 - 0x200 := by decide
/-- LOAD-3. -/
theorem test_load_empty : (match loadRom [] bare with | .ok t => (after (step t)).status | .error _ => .running) =
    .halted ⟨.unknownOpcode, some 0, some 0x200, none⟩ := by decide
theorem test_session_order :
    ((Session.mk bare .created).run .step).isSome = false ∧ ((Session.mk bare .created).run (.init defaultParams)).isSome = true ∧
    ((Session.mk bare .executing).run (.load [])).isSome = false := by decide
/-- R297's result and phase of a step: P6's kind of ending (00EE on an empty stack), and an Ok. -/
theorem test_session_step : ((Session.mk (before 0x00EE) .loaded).run .step).map (fun p => (p.1.phase, p.2)) =
      some (.executing, .err ⟨.stackUnderflow, some 0x00EE, some 0x200, none⟩) ∧
    ((Session.mk (before 0x1200) .initialised).run .step).map (fun p => (p.1.phase, p.2)) = some (.executing, .ok) := by decide
/-- R87: a second register V0 is the same word as none. -/
theorem test_assembly_shift_V0 : (AsmForm.mk "SHR" [.reg 1, .reg 0]).assemble.map encode = some 0x8106 := by decide
/-- P6 at its last step: the stack is full, the CALL overflows, and the frame ends without a tick. -/
theorem test_frame_stops_at_error :
    (match runFrame bare.key 3 { bare with DT := 5, mem := [] } with | .next t => (t.DT, t.pc) | _ => (0, 0)) = (5, 0x202) := by decide

/-! ### Witnesses: each statement's hypotheses are met together -/

theorem bare_inv : bare.Inv := ⟨by decide, by decide, by decide, fun e h => by cases h⟩
theorem before_inv (w : Nat) (h : (before w).mem.wf = true) : (before w).Inv :=
  ⟨h, (show bare.rng ≠ 0 by decide), (show bare.cfg.wf = true by decide), fun e h => by cases h⟩

theorem witness_init : defaultParams.config.wf = true := by decide
/-- FONT_BASE at its bound (decision D19), with a zero seed. -/
theorem witness_init_bound :
    (InitParams.mk ⟨.resultThenFlag, 0x1B0⟩ defaultGlyphs 0).config.wf = true := by decide
theorem witness_step_invariant : ∃ s t, s.Inv ∧ step s = .next t := ⟨before 0xC3FF, _, before_inv _ (by decide), rfl⟩
theorem witness_host_invariant : ∃ (op : HostOp) (s u : Session) (r : HostResult), (∀ p, op = .init p → p.config.wf = true) ∧
    s.machine.Inv ∧ Session.run op s = some (u, r) :=
  ⟨.tick, ⟨bare, .loaded⟩, _, _, fun p h => (by cases h), bare_inv, rfl⟩
theorem witness_well_formed : (Instr.drw 1 2 15).wellFormed = true := by decide
theorem witness_decodes : decodeWord 0x8AB7 = .ok (.subn 0xA 0xB) ∧ ∃ e, decodeWord 0x9001 = .error e :=
  ⟨by decide, .unknown 0x9001, by decide⟩
theorem witness_step_ok : (before 0x6A2F).status = .running ∧ decodeWord (before 0x6A2F).fetchWord = .ok (.ldImm 0xA 0x2F) := by
  decide
theorem witness_step_unknown : (before 0x5001).status = .running ∧
    ∃ e, decodeWord (before 0x5001).fetchWord = .error e := ⟨rfl, .unknown 0x5001, by decide⟩
theorem witness_memory_wf : bare.mem.wf = true ∧ State.reset.mem.wf = true := by decide
theorem witness_halted : ∃ s e, State.status s = .halted e := ⟨after (step bare), _, rfl⟩
theorem witness_error : ∃ s t e, State.status s = .running ∧ step s = .next t ∧ State.status t = .halted e :=
  ⟨before 0x00EE, _, _, rfl, rfl, rfl⟩
/-- Every component that an instruction may write is written by one. -/
theorem witness_writers : (after (exec (.rnd 0 0) bare)).rng ≠ bare.rng ∧ (after (exec (.ldI 0x2F0) bare)).I ≠ bare.I ∧
    (after (exec (.call 0x300) bare)).sp ≠ bare.sp ∧ (after (exec (.call 0x300) bare)).stack ≠ bare.stack ∧
    (after (exec (.ldDTVx 4) (keyA 5))).DT ≠ (keyA 5).DT ∧ (after (exec (.ldSTVx 4) (keyA 5))).ST ≠ (keyA 5).ST ∧
    (after (exec (.storeRegs 4) (keyA 5))).mem ≠ (keyA 5).mem ∧ (after (exec (.ldImm 0 1) bare)).V ≠ bare.V := by decide
theorem witness_writers_rest : (after (exec .cls { bare with disp := eightOn })).disp ≠ eightOn ∧
    (after (exec .ret bare)).status ≠ bare.status ∧ (after (exec (.jp 0x300) bare)).pc ≠ bare.pc := by decide
theorem witness_vf_order : Instr.shl VF 2 ∈ [Instr.addReg VF 2, .subReg VF 2, .shr VF 2, .subn VF 2, .shl VF 2] := by decide
theorem witness_generator : (1 : RngState) ≠ 0 := by decide
/-- sp = 15 and sp = 16, the two sides of CALL's bound. -/
theorem witness_call : ({ bare with sp := 15 } : State).sp.val < 16 ∧ ({ bare with sp := 16 } : State).sp.val = 16 := by decide
/-- sp = 16 and sp = 0, for RET. -/
theorem witness_ret : ({ bare with sp := 16 } : State).sp.val = (15 : Fin 16).val + 1 ∧ bare.sp.val = 0 := by decide
/-- The last byte a store writes is the high byte of the next word, or the first is the low byte: Fx55 with x = 15, and Fx33. -/
theorem witness_stored_fetch : (15 : Reg) ≤ 15 ∧
    maskAddr bare.pc.toNat = maskAddr (({ bare with I := 0x1F1 } : State).dataAddr 15) ∧
    maskAddr bare.pc.toNat = maskAddr (({ bare with I := 0x1FE } : State).dataAddr 2) ∧
    maskAddr (bare.pc.toNat + 1) = maskAddr (({ bare with I := 0x201 } : State).dataAddr 0) := by decide
/-- V4 = 15 names a key, V4 = 16 does not. -/
theorem witness_key_skip : ((keyA 15).reg 4).toNat = (15 : Fin 16).val ∧ ((keyA 16).reg 4).toNat > 15 := by decide
theorem witness_wait_key : (bare.key.set 3 true).get 3 = true ∧ (∀ j < (3 : Fin 16), (bare.key.set 3 true).get j = false) ∧
    ∀ k, bare.key.get k = false := by decide
theorem witness_spin : (before 0xF50A).status = .running ∧ (before 0xF50A).fetchWord = encode (.ldVxK 5) ∧
    ∀ k, (before 0xF50A).key.get k = false := by decide
theorem witness_running : bare.status = .running := rfl
/-- A ROM of 3584 bytes and one of 3585. -/
theorem witness_rom : (List.replicate 3584 (0 : Byte)).length ≤ 3584 ∧ (List.replicate 3585 (0 : Byte)).length > 3584 := by
  rw [List.length_replicate, List.length_replicate]; omega
theorem witness_draw_twice : ∃ s t u : State, exec (.drw 0 1 1) s = .next t ∧ t.startColumn 0 = s.startColumn 0 ∧
    t.startRow 1 = s.startRow 1 ∧ exec (.drw 0 1 1) t = .next u :=
  ⟨canvas 0 0 [0xFF] Display.blank, _, _, rfl, by decide, by decide, rfl⟩
theorem witness_draw_twice_blank : ∀ x y, (canvas 0 0 [0xFF] Display.blank).disp.cell x y = false := by
  intro x y
  show Display.blank.cell x y = false
  unfold Display.cell Display.row Display.blank
  split <;> simp
/-- The last cell of the display, and a phase in which it is read. -/
theorem witness_export : (63 : Nat) ≤ 63 ∧ (31 : Nat) ≤ 31 ∧ Phase.initialised ≠ .created := by decide
/-- A frame that ends running (1200 at 0x200), and one that ends halted (00EE with an empty stack). -/
theorem witness_frame : (∃ t, runSteps 2 (before 0x1200) = .next t ∧ t.status = .running) ∧
    ∃ t, runSteps 2 (before 0x00EE) = .next t ∧ t.status ≠ .running :=
  ⟨⟨_, rfl, by decide⟩, ⟨_, rfl, by decide⟩⟩
/-- A session that uses every operation. -/
theorem witness_session : ∃ u, Session.runAll [.init defaultParams, .load [0x12, 0x00], .setKeypad bare.key, .step, .tick,
    .readDisplay, .readStatus] ⟨bare, .created⟩ = some u := ⟨_, rfl⟩
/-- A load that is too long, and the retry. -/
theorem witness_session_retry : ∃ u, Session.runAll [.init defaultParams, .load (List.replicate 3585 0), .load [0x12, 0x00]]
    ⟨bare, .created⟩ = some u := by
  have h : (List.replicate 3585 (0 : Byte)).length > maxRomLength := by rw [List.length_replicate, maxRomLength]; omega
  refine ⟨_, Session.runAll_cons.2 ⟨_, _, rfl, Session.runAll_cons.2 ⟨⟨State.init defaultParams, .initialised⟩, .err (romTooLarge (List.replicate 3585 (0 : Byte)).length), ?_,
    Session.runAll_cons.2 ⟨_, _, rfl, rfl⟩⟩⟩⟩
  rw [Session.run, if_pos rfl, Session.runLoad, loadRom_of_gt h]

end Sys2Proof.Tests
end

section
/-! SUPPORT. What `init` leaves in memory (rules R37, R38, R320), and the statement about the reset state. -/

namespace Sys2Proof.Machine

/-- Byte b of the font is read at FONT_BASE + b (rules R37, R320). -/
theorem State.memRead_init_font (p : InitParams) (b : Fin 80) :
    (State.init p).memRead (p.config.fontBase.toNat + b.val) = p.glyphs.get b :=
  Memory.read_writeBlock_at (m := []) rfl (bs := p.glyphs.toList) (by simp) (by simp)

/-- Every byte outside the font is zero (rules R38, R320). -/
theorem State.memRead_init_outside {p : InitParams} (hp : p.config.wf = true) {a : Nat} (ha : a < 4096)
    (ho : a < p.config.fontBase.toNat ∨ p.config.fontBase.toNat + 80 ≤ a) : (State.init p).memRead a = 0 := by
  have hbase : p.config.fontBase.toNat + 80 ≤ 0x200 := of_decide_eq_true hp
  have hmiss : ∀ i < p.glyphs.toList.length, maskAddr a ≠ maskAddr (p.config.fontBase.toNat + i) := by
    intro i hi
    rw [Vector.length_toList] at hi
    rw [maskAddr_of_lt ha, maskAddr_of_lt (by omega)]
    omega
  exact Memory.read_writeBlock_other (m := []) rfl hmiss

/-- A run of n font bytes, from byte k on, is read as one block at FONT_BASE + k (rule R37). -/
theorem State.memReadBlock_init_font (p : InitParams) {k n : Nat} (h : k + n ≤ 80) :
    (State.init p).memReadBlock (p.config.fontBase.toNat + k) n = (p.glyphs.toList.drop k).take n := by
  have hlen : ((State.init p).memReadBlock (p.config.fontBase.toNat + k) n).length = n := Memory.length_readBlock _ _ _
  apply List.ext_getElem
  · rw [hlen, List.length_take, List.length_drop, Vector.length_toList]
    omega
  · intro i hi _
    have hbyte := State.memRead_init_font p ⟨k + i, by omega⟩
    rw [← Nat.add_assoc] at hbyte
    rw [List.getElem_take, List.getElem_drop]
    exact (Memory.getElem_readBlock _ _ _ _ hi).trans hbyte

/-- Settles O2: the registers are `init`'s own values, the glyphs are runs of the font, and the three zero bytes lie outside it. -/
theorem resetUsesTheDefaultParameters : Obligations.ResetUsesTheDefaultParameters := by
  have hp : defaultParams.config.wf = true := by decide
  have hbase : defaultParams.config.fontBase.toNat = 0x050 := rfl
  refine ⟨rfl, rfl, rfl, rfl, rfl, ?glyph0, ?glyphF, ?before, ?after, ?program⟩
  case glyph0 => exact (State.memReadBlock_init_font defaultParams (k := 0) (by omega)).trans (by decide)
  case glyphF => exact (State.memReadBlock_init_font defaultParams (k := 75) (by omega)).trans (by decide)
  case before => exact State.memRead_init_outside hp (by omega) (by omega)
  case after => exact State.memRead_init_outside hp (by omega) (by omega)
  case program => exact State.memRead_init_outside hp (by omega) (by omega)

end Sys2Proof.Machine
end

section
/-! SUPPORT. The generator's advance (rules R151, R152): each of its three xor-shift steps can be undone bit by bit. -/

namespace Sys2Proof.Machine

/-- A bit sequence is determined by its xor with itself delayed by k > 0 places: bit i of the sum gives bit i once the bits
before it are known. -/
theorem eq_of_xor_delayed {k n : Nat} (hk : 0 < k) {f g : Nat → Bool}
    (h : ∀ i < n, (f i ^^ (!decide (i < k) && f (i - k))) = (g i ^^ (!decide (i < k) && g (i - k)))) :
    ∀ i < n, f i = g i := by
  intro i
  induction i using Nat.strong_induction_on with
  | _ i ih =>
    intro hi
    have hbit := h i hi
    by_cases hki : i < k
    · simpa [hki] using hbit
    · rw [ih (i - k) (by omega) (by omega)] at hbit
      exact Bool.xor_left_inj.mp hbit

/-- A left xor-shift can be undone from the lowest bit up. -/
theorem xor_shiftLeft_injective {w k : Nat} (hk : 0 < k) : Function.Injective fun a : BitVec w => a ^^^ (a <<< k) := by
  intro a b hab
  refine BitVec.eq_of_getLsbD_eq (eq_of_xor_delayed (f := a.getLsbD) (g := b.getLsbD) hk fun i hi => ?_)
  have hbit := congrArg (fun v : BitVec w => v.getLsbD i) hab
  simpa only [BitVec.getLsbD_xor, BitVec.getLsbD_shiftLeft, hi, decide_true, Bool.true_and] using hbit

/-- A right xor-shift can be undone from the highest bit down. -/
theorem xor_ushiftRight_injective {w k : Nat} (hk : 0 < k) : Function.Injective fun a : BitVec w => a ^^^ (a >>> k) := by
  intro a b hab
  refine BitVec.eq_of_getMsbD_eq (eq_of_xor_delayed (f := a.getMsbD) (g := b.getMsbD) hk fun i hi => ?_)
  have hbit := congrArg (fun v : BitVec w => v.getMsbD i) hab
  simpa [hi] using hbit

/-- The advance is three xor-shifts, one after the other, so it is injective (rule R152). -/
theorem rngAdvance_injective : Function.Injective rngAdvance :=
  (xor_shiftLeft_injective (k := 5) (by omega)).comp
    ((xor_ushiftRight_injective (k := 17) (by omega)).comp (xor_shiftLeft_injective (k := 13) (by omega)))

/-- Only zero advances to zero (rule R152). -/
theorem rngAdvance_ne_zero {a : RngState} (ha : a ≠ 0) : rngAdvance a ≠ 0 :=
  fun h => ha (rngAdvance_injective (h.trans (by decide : (0 : RngState) = rngAdvance 0)))

/-- Settles O29: the advance is injective, and zero is what zero advances to. -/
theorem generatorAdvanceIsInjective : Obligations.GeneratorAdvanceIsInjective :=
  ⟨fun _ _ h => rngAdvance_injective h, fun _ h => rngAdvance_ne_zero h⟩

end Sys2Proof.Machine
end

section
/-! SUPPORT. What an instruction can do to the state, said once over all 34: the components it writes and the errors it raises. -/

namespace Sys2Proof.Machine

/-- The instructions of the written-by column of V (rules R36, R109). -/
def MayWriteV (i : Instr) : Prop :=
  (∃ x kk, i = .ldImm x kk ∨ i = .addImm x kk ∨ i = .rnd x kk) ∨
  (∃ x y, i = .ldReg x y ∨ i = .orReg x y ∨ i = .andReg x y ∨ i = .xorReg x y ∨ i = .addReg x y ∨ i = .subReg x y ∨
    i = .shr x y ∨ i = .subn x y ∨ i = .shl x y) ∨
  (∃ x, i = .ldVxDT x ∨ i = .ldVxK x ∨ i = .loadRegs x) ∨ ∃ x y n, i = .drw x y n

/-- The instructions of the written-by column of pc (rules R36, R109). -/
def MayWritePc (i : Instr) : Prop :=
  i = .ret ∨ (∃ nnn, i = .jp nnn ∨ i = .call nnn ∨ i = .jpV0 nnn) ∨
  (∃ x kk, i = .seImm x kk ∨ i = .sneImm x kk) ∨ (∃ x y, i = .seReg x y ∨ i = .sneReg x y) ∨
  ∃ x, i = .skp x ∨ i = .sknp x ∨ i = .ldVxK x

/-- Everything an instruction can do to the state s: the components written together, by which instructions, and the three
errors of rule R281 that execution raises, each with its condition. -/
inductive ExecEffect (s : State) : Instr → State → Prop
  | registers {i : Instr} (hi : MayWriteV i) (V : Vector Byte 16) : ExecEffect s i { s with V := V }
  | random (x : Reg) (kk : Byte) (V : Vector Byte 16) :
      ExecEffect s (.rnd x kk) { s with V := V, rng := rngAdvance s.rng }
  | clear (d : Display) : ExecEffect s .cls { s with disp := d }
  | draw (x y : Reg) (n : Nibble) (d : Display) (V : Vector Byte 16) :
      ExecEffect s (.drw x y n) { s with disp := d, V := V }
  | counter {i : Instr} (hi : MayWritePc i) (p : Word) : ExecEffect s i { s with pc := p }
  | push (nnn : Addr) (st : Vector Word 16) (n : Fin 17) (p : Word) :
      ExecEffect s (.call nnn) { s with stack := st, sp := n, pc := p }
  | pop (n : Fin 17) (p : Word) : ExecEffect s .ret { s with sp := n, pc := p }
  | index {i : Instr} (hi : (∃ nnn, i = .ldI nnn) ∨ (∃ x, i = .addI x) ∨ ∃ x, i = .ldF x) (a : Word) :
      ExecEffect s i { s with I := a }
  | store {i : Instr} (hi : (∃ x, i = .ldB x) ∨ ∃ x, i = .storeRegs x) (a : Nat) (bs : List Byte) :
      ExecEffect s i (s.memWriteBlock a bs)
  | delayTimer (x : Reg) (v : Byte) : ExecEffect s (.ldDTVx x) { s with DT := v }
  | soundTimer (x : Reg) (v : Byte) : ExecEffect s (.ldSTVx x) { s with ST := v }
  | overflow (nnn : Addr) (h : s.sp.val = 16) : ExecEffect s (.call nnn) (s.raise .stackOverflow none)
  | underflow (h : s.sp.val = 0) : ExecEffect s .ret (s.raise .stackUnderflow none)
  | invalidKey {i : Instr} (x : Reg) (hi : i = .skp x ∨ i = .sknp x) (h : (s.reg x).toNat > 15) :
      ExecEffect s i (s.raise .invalidKeyIndex (some (s.reg x).toNat))

/-- The flag instructions write registers, through the two writes of rule R121. -/
theorem ExecEffect.flagResult {i : Instr} (hi : MayWriteV i) (s : State) (x : Reg) (res f : Byte) :
    ExecEffect s i (s.writeFlagResult x res f) := by
  rw [State.writeFlagResult_frame]
  exact .registers hi _

/-- A skip writes pc, whether it is taken or not (rule R160). -/
theorem ExecEffect.skip {i : Instr} (hi : MayWritePc i) (s : State) (c : Bool) : ExecEffect s i (s.skipIf c) := by
  rw [State.skipIf_eq]
  exact .counter hi _

/-- What an instruction does is one of its effects. -/
theorem exec_effect {i : Instr} {s t : State} (h : exec i s = .next t) : ExecEffect s i t := by
  cases i
  case cls => cases h; exact .clear _
  case ret =>
    simp only [exec, execRet] at h
    split at h <;> cases h
    · exact .underflow ‹_›
    · exact .pop _ _
  case call nnn =>
    simp only [exec, execCall] at h
    split at h <;> cases h
    · exact .push _ _ _ _
    · exact .overflow _ (by omega)
  case skp x =>
    simp only [exec, execSkp] at h
    split at h <;> cases h
    · exact .skip (by simp [MayWritePc]) _ _
    · exact .invalidKey x (.inl rfl) (keyIndex_eq_none.mp ‹_›)
  case sknp x =>
    simp only [exec, execSknp] at h
    split at h <;> cases h
    · exact .skip (by simp [MayWritePc]) _ _
    · exact .invalidKey x (.inr rfl) (keyIndex_eq_none.mp ‹_›)
  case ldVxK x =>
    simp only [exec, execLdVxK] at h
    split at h <;> cases h
    · exact .registers (by simp [MayWriteV]) _
    · exact .counter (by simp [MayWritePc]) _
  case rnd => cases h; exact .random _ _ _
  case drw => cases h; exact .draw _ _ _ _ _
  case ldDTVx => cases h; exact .delayTimer _ _
  case ldSTVx => cases h; exact .soundTimer _ _
  case jp | jpV0 => cases h; exact .counter (by simp [MayWritePc]) _
  case seImm | sneImm | seReg | sneReg => cases h; exact .skip (by simp [MayWritePc]) _ _
  case ldI | addI | ldF => cases h; exact .index (by simp) _
  case ldB | storeRegs => cases h; exact .store (by simp) _ _
  case addReg | subReg | shr | subn | shl => cases h; exact .flagResult (by simp [MayWriteV]) _ _ _ _
  case ldImm | addImm | ldReg | orReg | andReg | xorReg | ldVxDT | loadRegs =>
    cases h; exact .registers (by simp [MayWriteV]) _

end Sys2Proof.Machine
end

section
/-! SUPPORT. The invariant's statements (rules R31, R32, R281, R288), and the only writers of each component (rules R36, R109). -/

namespace Sys2Proof.Machine

/-- A running state has no record to explain. -/
theorem State.inv_of_running {s : State} (hm : s.mem.wf = true) (hg : s.rng ≠ 0) (hf : s.cfg.wf = true)
    (hr : s.status = .running) : s.Inv :=
  ⟨hm, hg, hf, fun e he => by rw [hr] at he; cases he⟩

/-- An error keeps the invariant when the record it leaves is the one its state shows (rules R281, R288). -/
theorem State.Inv.raise {s : State} (hs : s.Inv) {k : ErrorKind} {info : Option Nat}
    (he : (s.errorRecord k info).explains (s.raise k info)) : (s.raise k info).Inv where
  memory := hs.memory
  generator := hs.generator
  font := hs.font
  record _ h := Status.halted.inj h ▸ he

/-- Fetch and advance keep the invariant of a running state. -/
theorem State.Inv.fetched {s : State} (hs : s.Inv) (hr : s.status = .running) : s.fetched.Inv :=
  State.inv_of_running hs.memory hs.generator hs.font hr

/-- An instruction that a running state has fetched keeps the invariant: a store keeps the memory canonical, the advance
keeps the generator from zero, and each error leaves the record its state shows. -/
theorem exec_keeps_inv {i : Instr} {s t : State} (hs : s.Inv) (hr : s.status = .running) (hd : decodeWord s.opcode = .ok i)
    (h : exec i s = .next t) : t.Inv := by
  cases exec_effect h with
  | store _ a bs => exact State.inv_of_running (Memory.wf_writeBlock hs.memory a bs) hs.generator hs.font hr
  | random => exact State.inv_of_running hs.memory (rngAdvance_ne_zero hs.generator) hs.font hr
  | overflow nnn hsp => exact hs.raise ⟨rfl, rfl, ⟨nnn, hd⟩, hsp, rfl⟩
  | underflow hsp => exact hs.raise ⟨rfl, rfl, hd, hsp, rfl⟩
  | invalidKey x hi hx =>
    have hdx : decodeWord s.opcode = .ok (.skp x) ∨ decodeWord s.opcode = .ok (.sknp x) := by
      obtain rfl | rfl := hi
      · exact .inl hd
      · exact .inr hd
    exact hs.raise ⟨rfl, rfl, x, hdx, hx, rfl⟩
  | registers | clear | draw | counter | push | pop | index | delayTimer | soundTimer =>
    exact State.inv_of_running hs.memory hs.generator hs.font hr

/-- Settles O5: the step either raises UnknownOpcode, which its word explains, or runs the decoded instruction, on the state
after fetch and advance. -/
theorem stepKeepsTheInvariant : Obligations.StepKeepsTheInvariant := by
  intro s t hs h
  obtain ⟨hr, ⟨e, hd, rfl⟩ | ⟨i, hd, hx⟩⟩ := step_cases h
  · have hunknown : ∀ i, decodeWord s.fetchWord ≠ .ok i := fun i hi => by
      rw [hd] at hi
      cases hi
    exact (hs.fetched hr).raise ⟨rfl, rfl, hunknown, rfl⟩
  · exact exec_keeps_inv (hs.fetched hr) hr hd hx

theorem seedRng_ne_zero (seed : RngState) : seedRng seed ≠ 0 := by
  unfold seedRng
  split
  · decide
  · assumption

/-- Settles O4: the font is a block stored in an empty memory, and a zero seed is coerced (rule R150). -/
theorem initMeetsTheInvariant : Obligations.InitMeetsTheInvariant := fun p hp =>
  State.inv_of_running (Memory.wf_writeBlock rfl _ _) (seedRng_ne_zero p.seed) hp rfl

/-- Settles O3: the reset state is `init`'s with the default parameters, whose font base D19 allows. -/
theorem resetMeetsTheInvariant : Obligations.ResetMeetsTheInvariant := initMeetsTheInvariant defaultParams (by decide)

/-- Settles O19: each effect leaves every component but those it names, and names the instructions that have it. -/
theorem eachComponentHasItsOnlyWriters : Obligations.EachComponentHasItsOnlyWriters := by
  intro i s t h
  cases exec_effect h
  case registers V hi => simpa [MayWriteV] using fun _ => hi
  case counter p hi => simpa [MayWritePc] using fun _ => hi
  case index a hi => simpa using fun _ => hi
  case store a bs hi => simpa using fun _ => hi
  case invalidKey x hx hi => obtain rfl | rfl := hi <;> simp
  case random | clear | draw | push | pop | delayTimer | soundTimer | overflow | underflow => simp

end Sys2Proof.Machine
end

section
/-! SUPPORT. The flags as conditions (rule R22), and the two orders of rule R121 at x = 15. -/

namespace Sys2Proof.Machine

@[simp] theorem flagByte_eq_one {c : Bool} : flagByte c = 1 ↔ c = true := by cases c <;> decide

theorem flagByte_eq_zero_or_one (c : Bool) : flagByte c = 0 ∨ flagByte c = 1 := by cases c <;> decide

theorem flagByte_eq_ofBool (c : Bool) : flagByte c = (BitVec.ofBool c).setWidth 8 := by cases c <;> decide

/-- 8xy6's flag is bit 0 (rule R131). -/
theorem shiftRightFlag_eq (a : Byte) : shiftRightFlag a = flagByte (a.getLsbD 0) := by
  rw [flagByte_eq_ofBool]
  exact BitVec.and_one_eq_setWidth_ofBool_getLsbD

/-- 8xyE's flag is bit 7 (rule R132). -/
theorem shiftLeftFlag_eq (a : Byte) : shiftLeftFlag a = flagByte (a.getLsbD 7) := by
  rw [flagByte_eq_ofBool, ← BitVec.getLsbD_ushiftRight a 7 0]
  exact BitVec.and_one_eq_setWidth_ofBool_getLsbD

/-- At x = 15 FLAG_THEN_RESULT writes the result last (rule R121). -/
theorem State.reg_writeFlagResult_flagThenResult (s : State) (res f : Byte) :
    ((s.withVfOrder .flagThenResult).writeFlagResult VF res f).reg VF = res := by
  simp [State.reg_writeFlagResult, State.withVfOrder]

/-- At x = 15 RESULT_THEN_FLAG writes the flag last (rule R121). -/
theorem State.reg_writeFlagResult_resultThenFlag (s : State) (res f : Byte) :
    ((s.withVfOrder .resultThenFlag).writeFlagResult VF res f).reg VF = f := by
  simp [State.reg_writeFlagResult, State.withVfOrder]

/-- What the two settings of VF_ORDER make of an instruction that writes a result and a flag with x = 15. -/
theorem vfOrder_decides {i : Instr} {s : State} {res f : Byte} {c : Bool} {P : Prop}
    (hi : ∀ o, exec i (s.withVfOrder o) = .next ((s.withVfOrder o).writeFlagResult VF res f))
    (hf : f = flagByte c) (hP : c = true ↔ P) :
    ∃ t u, exec i (s.withVfOrder .flagThenResult) = .next t ∧ exec i (s.withVfOrder .resultThenFlag) = .next u ∧
      t.reg VF = res ∧ (u.reg VF = 0 ∨ u.reg VF = 1) ∧ (u.reg VF = 1 ↔ P) := by
  subst hf
  refine ⟨_, _, hi _, hi _, State.reg_writeFlagResult_flagThenResult s res _, ?_⟩
  rw [State.reg_writeFlagResult_resultThenFlag]
  exact ⟨flagByte_eq_zero_or_one c, flagByte_eq_one.trans hP⟩

/-- Settles O27: each of the five writes its result and its flag by `WriteFlagResult` (rules R128 to R132). -/
theorem vfOrderDecidesWhatVfKeeps : Obligations.VfOrderDecidesWhatVfKeeps := by
  intro y s i hi
  simp only [List.mem_cons, List.not_mem_nil, or_false] at hi
  obtain rfl | rfl | rfl | rfl | rfl := hi
  · exact vfOrder_decides (fun _ => rfl) rfl decide_eq_true_iff
  · exact vfOrder_decides (fun _ => rfl) rfl decide_eq_true_iff
  · exact vfOrder_decides (fun _ => rfl) (shiftRightFlag_eq _) Iff.rfl
  · exact vfOrder_decides (fun _ => rfl) rfl decide_eq_true_iff
  · exact vfOrder_decides (fun _ => rfl) (shiftLeftFlag_eq _) Iff.rfl

end Sys2Proof.Machine
end

section
/-! SUPPORT. The decoder reads back every instruction from the word the encoder writes for it (rules R71, R80, R81). -/

namespace Sys2Proof

/-- Decoding undoes encoding: the selectors of the word choose the arm, and its fields are the operands. -/
theorem decodeWord_encode (i : Instr) : decodeWord (encode i) = .ok i := by
  cases i
  case cls | ret => rfl
  case jp | call | seImm | sneImm | seReg | ldImm | addImm | sneReg | ldI | jpV0 | rnd | drw => simp [encode, decodeWord]
  case ldReg | orReg | andReg | xorReg | addReg | subReg | shr | subn | shl => simp [encode, decodeWord, decode8]
  case skp | sknp => simp [encode, decodeWord, decodeE]
  case ldVxDT | ldVxK | ldDTVx | ldSTVx | addI | ldF | ldB | storeRegs | loadRegs => simp [encode, decodeWord, decodeF]

/-- A word of two bytes as a number, the first byte high (rule R52). -/
theorem toNat_wordOfBytes (hi lo : Byte) : (wordOfBytes hi lo).toNat = 256 * hi.toNat + lo.toNat := by
  rw [wordOfBytes, BitVec.toNat_append, ← Nat.shiftLeft_add_eq_or_of_lt lo.isLt, Nat.shiftLeft_eq, Nat.mul_comm]

end Sys2Proof
end

section
/-! SUPPORT. The fetched word and the bytes in memory: the two bytes at pc make it (rule R101), a placed word is run next
(rule R105), and a byte stored there is fetched (rule R60). -/

namespace Sys2Proof.Machine

/-- Settles O14: the fetched word is the word of the two bytes read at pc and pc + 1. -/
theorem fetchIsBigEndianAndWraps : Obligations.FetchIsBigEndianAndWraps :=
  fun s => toNat_wordOfBytes (s.memRead s.pc.toNat) (s.memRead (s.pc.toNat + 1))

/-- A running state that fetches an instruction's word runs the instruction (rule R105). -/
theorem step_of_fetchWord_encode {s : State} {i : Instr} (hr : s.status = .running) (hf : s.fetchWord = encode i) :
    step s = exec i s.fetched := by
  rw [step_of_running hr, hf, decodeWord_encode]
  rfl

/-- Settles O15: the placed word is fetched, and the decoder gives its instruction back. -/
theorem placedWordIsRunNext : Obligations.PlacedWordIsRunNext := by
  intro s i hm
  have hfetch : (s.withFetchWord 16 (encode i).toNat).fetchWord = encode i := by
    rw [State.fetchWord_withFetchWord hm, Nat.mod_eq_of_lt (encode i).isLt, BitVec.ofNat_toNat, BitVec.setWidth_eq]
  exact ⟨hfetch, step_of_fetchWord_encode rfl hfetch⟩

@[simp] theorem State.highByte_fetchWord (s : State) : highByte s.fetchWord = s.memRead s.pc.toNat :=
  highByte_wordOfBytes _ _

@[simp] theorem State.lowByte_fetchWord (s : State) : lowByte s.fetchWord = s.memRead (s.pc.toNat + 1) :=
  lowByte_wordOfBytes _ _

/-- Only the low 12 bits of an address matter to a read (rule R51). -/
theorem State.memRead_congr (s : State) {a b : Nat} (h : maskAddr a = maskAddr b) : s.memRead a = s.memRead b :=
  congrArg s.mem.read h

/-- Byte k of a block stored from I on is read at I + k (rules R51, R196). -/
theorem State.memRead_memWriteBlock_dataAddr {s : State} (hm : s.mem.wf = true) {bs : List Byte} (hl : bs.length ≤ 4096)
    {k : Nat} (hk : k < bs.length) : (s.memWriteBlock (s.dataAddr 0) bs).memRead (s.dataAddr k) = bs[k] :=
  Memory.read_writeBlock_at hm hk hl

/-- Byte k of a block stored from I on is the high byte of the next word where pc names its address, and the low byte where
pc + 1 does (rules R60, R332). -/
theorem State.fetchWord_memWriteBlock {s : State} (hm : s.mem.wf = true) {bs : List Byte} (hl : bs.length ≤ 4096) {k : Nat}
    (hk : k < bs.length) :
    (maskAddr s.pc.toNat = maskAddr (s.dataAddr k) → highByte (s.memWriteBlock (s.dataAddr 0) bs).fetchWord = bs[k]) ∧
    (maskAddr (s.pc.toNat + 1) = maskAddr (s.dataAddr k) → lowByte (s.memWriteBlock (s.dataAddr 0) bs).fetchWord = bs[k]) := by
  have hread := State.memRead_memWriteBlock_dataAddr hm hl hk
  constructor
  · intro h
    rw [State.highByte_fetchWord, State.memWriteBlock_pc, State.memRead_congr _ h, hread]
  · intro h
    rw [State.lowByte_fetchWord, State.memWriteBlock_pc, State.memRead_congr _ h, hread]

@[simp] theorem State.length_regBlock (s : State) (x : Reg) : (s.regBlock x).length = x.val + 1 := by
  simp [State.regBlock]

/-- Byte i of Fx55's block is Vi (rule R194). -/
theorem State.getElem_regBlock (s : State) (x i : Reg) (h : i.val < (s.regBlock x).length) :
    (s.regBlock x)[i.val] = s.reg i := by
  simp [State.regBlock, State.reg, Vector.get_eq_getElem]

/-- Digit k of Fx33's block is the decimal digit of weight 10 ^ (2 - k) (rule R193). -/
theorem toNat_getElem_bcdDigits (v : Byte) (k : Fin 3) : ((bcdDigits v)[k.val]'k.isLt).toNat = v.toNat / 10 ^ (2 - k.val) % 10 := by
  have hv := v.isLt
  match k with
  | 0 | 1 | 2 =>
    simp [bcdDigits]
    omega

/-- Settles O41: Fx55 and Fx33 each store one block from I on, of the registers and of the digits. -/
theorem storedBytesAreFetched : Obligations.StoredBytesAreFetched := by
  refine fun x s hm => ⟨⟨_, rfl, fun i hi => ?fx55⟩, ⟨_, rfl, fun k => ?fx33⟩⟩
  case fx55 =>
    have hlen := s.length_regBlock x
    have hk : i.val < (s.regBlock x).length := hlen ▸ Nat.lt_succ_of_le hi
    rw [← s.getElem_regBlock x i hk]
    exact State.fetchWord_memWriteBlock hm (by omega) hk
  case fx33 =>
    rw [← toNat_getElem_bcdDigits]
    obtain ⟨hhigh, hlow⟩ := State.fetchWord_memWriteBlock hm (bs := bcdDigits (s.reg x)) (by simp [bcdDigits]) k.isLt
    exact ⟨fun h => congrArg BitVec.toNat (hhigh h), fun h => congrArg BitVec.toNat (hlow h)⟩

end Sys2Proof.Machine
end

section
/-! SUPPORT. Encoding and decoding undo each other (rules R70, R71, R81), and the words written out from rule R80's patterns. -/

namespace Sys2Proof

/-- The decoder on an instruction's bytes gives the instruction and the bytes after them (rule R70). -/
theorem decodeBytes_encodeBytes (i : Instr) (rest : List Byte) : decodeBytes (encodeBytes i ++ rest) = .ok (i, rest) := by
  rw [encodeBytes, decodeBytes_wordBytes, decodeWord_encode]
  rfl

/-- A table word of 16 bits is read as the word itself. -/
theorem decodeTableWord_encode (i : Instr) : decodeTableWord 16 (encode i).toNat = some i := by
  have hbytes : decodeBytes (wordBytes (encode i)) = .ok (i, []) := by simpa [encodeBytes] using decodeBytes_encodeBytes i []
  rw [decodeTableWord, Nat.mod_eq_of_lt (encode i).isLt, BitVec.ofNat_toNat, BitVec.setWidth_eq, hbytes]

/-- Settles O7: bytes and table words are read through the word. -/
theorem decodeUndoesEncode : Obligations.DecodeUndoesEncode :=
  fun i rest _ => ⟨decodeWord_encode i, decodeBytes_encodeBytes i rest, decodeTableWord_encode i⟩

theorem encode_of_decode0 {w : Word} {i : Instr} (h : decode0 w = .ok i) : encode i = w := by
  unfold decode0 at h
  split at h
  case isTrue hw =>
    cases h
    exact hw.symm
  case isFalse =>
    split at h <;> cases h
    exact Eq.symm ‹_›

theorem encode_of_decode8 {w : Word} {i : Instr} (hp : primary w = 0x8#4) (h : decode8 w = .ok i) : encode i = w := by
  unfold decode8 at h
  split at h <;> cases h
  all_goals exact formatXYN_fields hp ‹_›

theorem encode_of_decodeE {w : Word} {i : Instr} (hp : primary w = 0xE#4) (h : decodeE w = .ok i) : encode i = w := by
  unfold decodeE at h
  split at h <;> cases h
  all_goals exact formatXKK_fields hp ‹_›

theorem encode_of_decodeF {w : Word} {i : Instr} (hp : primary w = 0xF#4) (h : decodeF w = .ok i) : encode i = w := by
  unfold decodeF at h
  split at h <;> cases h
  all_goals exact formatXKK_fields hp ‹_›

/-- Encoding undoes decoding: the word is its selectors and its fields, put together in its format. The decoder's arms are in
the order of the primaries, so h_1 is primary 0 and h_16 is primary F. -/
theorem encode_of_decodeWord {w : Word} {i : Instr} (h : decodeWord w = .ok i) : encode i = w := by
  unfold decodeWord at h
  split at h
  case h_1 => exact encode_of_decode0 h
  case h_9 hp => exact encode_of_decode8 hp h
  case h_15 hp => exact encode_of_decodeE hp h
  case h_16 => exact encode_of_decodeF (primary_eq_F ‹_› ‹_› ‹_› ‹_› ‹_› ‹_› ‹_› ‹_› ‹_› ‹_› ‹_› ‹_› ‹_› ‹_› ‹_›) h
  case h_6 hp | h_10 hp =>
    split at h <;> cases h
    exact formatXYN_fields hp ‹_›
  case h_14 hp =>
    cases h
    exact formatXYN_fields hp rfl
  case h_2 hp | h_3 hp | h_11 hp | h_12 hp =>
    cases h
    exact formatNNN_fields hp
  case h_4 hp | h_5 hp | h_7 hp | h_8 hp | h_13 hp =>
    cases h
    exact formatXKK_fields hp rfl

/-- Settles O8: each arm of the decoder reads fields that make the word again. -/
theorem encodeUndoesDecode : Obligations.EncodeUndoesDecode := fun _ _ => encode_of_decodeWord

/-- Settles O11: thirteen words are decoded by evaluation. -/
theorem wordsDecodeAsTheirPatternsSay : Obligations.WordsDecodeAsTheirPatternsSay := by
  unfold Obligations.WordsDecodeAsTheirPatternsSay
  decide

end Sys2Proof
end

section
/-! SUPPORT. The Unknown words (rules R82 to R86): the six groups as conditions on the selectors the decoder reads. -/

namespace Sys2Proof

open Machine

theorem toNat_primary (w : Word) : (primary w).toNat = w.toNat / 4096 := by
  have hw := w.isLt
  rw [primary, BitVec.extractLsb'_toNat, Nat.shiftRight_eq_div_pow]
  omega

theorem toNat_fieldKK (w : Word) : (fieldKK w).toNat = w.toNat % 256 := by
  simp [fieldKK, BitVec.extractLsb'_toNat]

theorem toNat_fieldN (w : Word) : (fieldN w).toNat = w.toNat % 16 := by
  simp [fieldN, BitVec.extractLsb'_toNat]

theorem decode0_eq_error_iff {w : Word} : decode0 w = .error (.unknown w) ↔ w ≠ 0x00E0#16 ∧ w ≠ 0x00EE#16 := by
  unfold decode0
  split
  case isTrue hw => simp [hw]
  case isFalse hE0 =>
    split
    case isTrue hw => simp [hw]
    case isFalse hEE => exact iff_of_true rfl ⟨hE0, hEE⟩

theorem decode8_eq_error_iff {w : Word} : decode8 w = .error (.unknown w) ↔
    fieldN w ∉ [0x0#4, 0x1#4, 0x2#4, 0x3#4, 0x4#4, 0x5#4, 0x6#4, 0x7#4, 0xE#4] := by
  unfold decode8
  split <;> simp_all

theorem decodeE_eq_error_iff {w : Word} : decodeE w = .error (.unknown w) ↔ fieldKK w ∉ [0x9E#8, 0xA1#8] := by
  unfold decodeE
  split <;> simp_all

theorem decodeF_eq_error_iff {w : Word} : decodeF w = .error (.unknown w) ↔
    fieldKK w ∉ [0x07#8, 0x0A#8, 0x15#8, 0x18#8, 0x1E#8, 0x29#8, 0x33#8, 0x55#8, 0x65#8] := by
  unfold decodeF
  split <;> simp_all

/-- The low nibbles rule R82 lists for primary 8 are those that select no instruction. -/
theorem mem_unlisted8_iff : ∀ n : Nibble, n.toNat ∈ [0x8, 0x9, 0xA, 0xB, 0xC, 0xD, 0xF] ↔
    n ∉ [0x0#4, 0x1#4, 0x2#4, 0x3#4, 0x4#4, 0x5#4, 0x6#4, 0x7#4, 0xE#4] := by
  decide

/-- Rule R82's groups, on the selectors of the decoder. -/
theorem unknownWord_iff {w : Word} : UnknownWord w ↔
    (primary w = 0x0#4 ∧ w ≠ 0x00E0#16 ∧ w ≠ 0x00EE#16) ∨ (primary w = 0x5#4 ∧ fieldN w ≠ 0x0#4) ∨
    (primary w = 0x8#4 ∧ fieldN w ∉ [0x0#4, 0x1#4, 0x2#4, 0x3#4, 0x4#4, 0x5#4, 0x6#4, 0x7#4, 0xE#4]) ∨
    (primary w = 0x9#4 ∧ fieldN w ≠ 0x0#4) ∨ (primary w = 0xE#4 ∧ fieldKK w ∉ [0x9E#8, 0xA1#8]) ∨
    (primary w = 0xF#4 ∧ fieldKK w ∉ [0x07#8, 0x0A#8, 0x15#8, 0x18#8, 0x1E#8, 0x29#8, 0x33#8, 0x55#8, 0x65#8]) := by
  rw [← mem_unlisted8_iff]
  simp [UnknownWord, ← toNat_primary, ← toNat_fieldKK, ← toNat_fieldN, BitVec.toNat_eq (n := 4), BitVec.toNat_eq (n := 8)]

/-- A word is rejected exactly when it is in the group of its primary. The cases are the decoder's arms, as above. -/
theorem decodeWord_eq_error_iff {w : Word} : decodeWord w = .error (.unknown w) ↔ UnknownWord w := by
  rw [unknownWord_iff]
  unfold decodeWord
  split
  case h_1 hp => simp [hp, decode0_eq_error_iff]
  case h_9 hp => simp [hp, decode8_eq_error_iff]
  case h_15 hp => simp [hp, decodeE_eq_error_iff]
  case h_16 =>
    have hp : primary w = 0xF#4 := primary_eq_F ‹_› ‹_› ‹_› ‹_› ‹_› ‹_› ‹_› ‹_› ‹_› ‹_› ‹_› ‹_› ‹_› ‹_› ‹_›
    simp [hp, decodeF_eq_error_iff]
  case h_6 hp | h_10 hp => simp [hp]
  case h_2 hp | h_3 hp | h_4 hp | h_5 hp | h_7 hp | h_8 hp | h_11 hp | h_12 hp | h_13 hp | h_14 hp => simp [hp]

/-- Settles O10: each arm of the decoder rejects the words of its primary's group. -/
theorem unknownWordsAreTheListedOnes : Obligations.UnknownWordsAreTheListedOnes := fun _ => decodeWord_eq_error_iff

end Sys2Proof
end

section
/-! SUPPORT. The opcode table (rules R80, R81, R86): what each mask selects, no two rows match one word, every instruction's word
matches its row, and an Unknown word matches none. -/

namespace Sys2Proof

open Machine

/-- Two bit vectors are equal when their high and their low parts are. -/
theorem eq_iff_high_low {a b : Nat} {v w : BitVec (a + b)} :
    v = w ↔ v.extractLsb' b a = w.extractLsb' b a ∧ v.extractLsb' 0 b = w.extractLsb' 0 b := by
  refine ⟨fun h => h ▸ ⟨rfl, rfl⟩, fun ⟨hhigh, hlow⟩ => ?_⟩
  rw [← extractLsb'_high_append_low v, hhigh, hlow, extractLsb'_high_append_low]

/-- A row of format O matches its pattern only. -/
theorem fitsWord_maskAll {m : String} {p w : Word} : (OpcodeRow.mk m p 0xFFFF#16).fitsWord w = decide (w = p) := by
  have hw : w &&& 0xFFFF#16 = w := BitVec.and_allOnes
  rw [OpcodeRow.fitsWord, hw, beq_eq_decide]

/-- A row of format NNN, XKK or XYN matches by its primary. -/
theorem fitsWord_maskPrimary {m : String} {p w : Word} : (OpcodeRow.mk m p 0xF000#16).fitsWord w =
    decide (primary w = p.extractLsb' 12 4 ∧ p.extractLsb' 0 12 = 0#12) := by
  have hp : primary w &&& 0xF#4 = primary w := BitVec.and_allOnes
  rw [OpcodeRow.fitsWord, beq_eq_decide, decide_eq_decide, eq_iff_high_low (a := 4) (b := 12), ← hp]
  simp [BitVec.extractLsb'_and, primary, eq_comm]

/-- A row of format XYF matches by its primary and the low nibble. -/
theorem fitsWord_maskPrimaryN {m : String} {p w : Word} : (OpcodeRow.mk m p 0xF00F#16).fitsWord w =
    decide (primary w = p.extractLsb' 12 4 ∧ p.extractLsb' 4 8 = 0#8 ∧ fieldN w = p.extractLsb' 0 4) := by
  have hp : primary w &&& 0xF#4 = primary w := BitVec.and_allOnes
  have hn : fieldN w &&& 0xF#4 = fieldN w := BitVec.and_allOnes
  rw [OpcodeRow.fitsWord, beq_eq_decide, decide_eq_decide, eq_iff_high_low (a := 4) (b := 12),
    eq_iff_high_low (a := 8) (b := 4), ← hp, ← hn]
  simp [BitVec.extractLsb'_and, primary, fieldN, extractLsb'_extractLsb'_of_le, eq_comm]

/-- A row of format XFF matches by its primary and the low byte. -/
theorem fitsWord_maskPrimaryKK {m : String} {p w : Word} : (OpcodeRow.mk m p 0xF0FF#16).fitsWord w =
    decide (primary w = p.extractLsb' 12 4 ∧ p.extractLsb' 8 4 = 0#4 ∧ fieldKK w = p.extractLsb' 0 8) := by
  have hp : primary w &&& 0xF#4 = primary w := BitVec.and_allOnes
  have hk : fieldKK w &&& 0xFF#8 = fieldKK w := BitVec.and_allOnes
  rw [OpcodeRow.fitsWord, beq_eq_decide, decide_eq_decide, eq_iff_high_low (a := 4) (b := 12),
    eq_iff_high_low (a := 4) (b := 8), ← hp, ← hk]
  simp [BitVec.extractLsb'_and, primary, fieldKK, extractLsb'_extractLsb'_of_le, eq_comm]

/-- Two rows of the table differ in a bit that both their masks select. -/
theorem opcodeTable_disjoint : ∀ r ∈ opcodeTable, ∀ s ∈ opcodeTable, r.pattern &&& s.mask = s.pattern &&& r.mask → r = s := by
  decide

/-- No two rows match one word. -/
theorem eq_of_fitsWord {r s : OpcodeRow} {w : Word} (hr : r ∈ opcodeTable) (hs : s ∈ opcodeTable)
    (hrw : r.fitsWord w = true) (hsw : s.fitsWord w = true) : r = s := by
  have hrp : w &&& r.mask = r.pattern := beq_iff_eq.mp hrw
  have hsp : w &&& s.mask = s.pattern := beq_iff_eq.mp hsw
  refine opcodeTable_disjoint r hr s hs ?_
  rw [← hrp, ← hsp, BitVec.and_assoc, BitVec.and_assoc, BitVec.and_comm r.mask]

/-- A row that matches is the only one, and the table holds it once. -/
theorem filter_fitsWord_eq_singleton {r : OpcodeRow} {w : Word} (hr : r ∈ opcodeTable) (h : r.fitsWord w = true) :
    opcodeTable.filter (fun s => s.fitsWord w) = [r] := by
  have hcount : opcodeTable.count r = 1 := List.count_eq_one_of_mem (by decide) hr
  have honly : ∀ s ∈ opcodeTable, s.fitsWord w = (s == r) := by
    intro s hs
    rw [Bool.eq_iff_iff, beq_iff_eq]
    exact ⟨fun hsw => eq_of_fitsWord hs hr hsw h, fun hsr => hsr ▸ h⟩
  rw [List.filter_congr honly, List.filter_beq, hcount, List.replicate_one]

/-- The row of an instruction is found by its mnemonic. -/
theorem exists_row_of_find {i : Instr} {r : OpcodeRow}
    (hr : opcodeTable.find? (fun r => r.mnemonic == i.mnemonic) = some r) (h : r.fitsWord (encode i) = true) :
    ∃ r ∈ opcodeTable, r.mnemonic = i.mnemonic ∧ r.fitsWord (encode i) = true :=
  ⟨r, List.mem_of_find?_eq_some hr, beq_iff_eq.mp (List.find?_some (p := fun r : OpcodeRow => r.mnemonic == i.mnemonic) hr), h⟩

/-- The word of an instruction matches the row of its mnemonic, by the mask of its format. -/
theorem exists_row_fitsWord_encode (i : Instr) :
    ∃ r ∈ opcodeTable, r.mnemonic = i.mnemonic ∧ r.fitsWord (encode i) = true := by
  cases i <;> refine exists_row_of_find rfl ?_
  case cls | ret => rfl
  case jp | call | ldI | jpV0 | seImm | sneImm | ldImm | addImm | rnd | drw => simp [encode, fitsWord_maskPrimary]
  case seReg | sneReg | ldReg | orReg | andReg | xorReg | addReg | subReg | shr | subn | shl =>
    simp [encode, fitsWord_maskPrimaryN]
  case skp | sknp | ldVxDT | ldVxK | ldDTVx | ldSTVx | addI | ldF | ldB | storeRegs | loadRegs =>
    simp [encode, fitsWord_maskPrimaryKK]

/-- An Unknown word matches no row: its group leaves out the rows of its primary. -/
theorem not_fitsWord_of_unknownWord {w : Word} (h : UnknownWord w) : ∀ r ∈ opcodeTable, ¬r.fitsWord w = true := by
  rw [unknownWord_iff] at h
  have hE0 : w ≠ 0x00E0#16 := fun hw => absurd (hw ▸ h) (by decide)
  have hEE : w ≠ 0x00EE#16 := fun hw => absurd (hw ▸ h) (by decide)
  simp only [ne_eq, List.mem_cons, List.not_mem_nil, or_false, not_or] at h
  obtain ⟨hp, hsel⟩ | ⟨hp, hsel⟩ | ⟨hp, hsel⟩ | ⟨hp, hsel⟩ | ⟨hp, hsel⟩ | ⟨hp, hsel⟩ := h <;>
    simp [opcodeTable, rowsOandNNN, rowsXKKandXYN, rowsXYF, rowsXFF, fitsWord_maskAll, fitsWord_maskPrimary,
      fitsWord_maskPrimaryN, fitsWord_maskPrimaryKK, hp, hsel, hE0, hEE]

/-- Settles O9: a decoded word is the encoding of its instruction, and a rejected one is Unknown. -/
theorem decodeAgreesWithTheOpcodeTable : Obligations.DecodeAgreesWithTheOpcodeTable := by
  refine fun w => ⟨fun i h => ?decoded, fun e h => ?rejected⟩
  case decoded =>
    obtain ⟨r, hr, hname, hfits⟩ := exists_row_fitsWord_encode i
    rw [encode_of_decodeWord h] at hfits
    rw [filter_fitsWord_eq_singleton hr hfits, List.map_singleton, hname]
  case rejected =>
    have hunknown : UnknownWord w := decodeWord_eq_error_iff.mp (decodeWord_error h ▸ h)
    exact List.filter_eq_nil_iff.mpr (not_fitsWord_of_unknownWord hunknown)

end Sys2Proof
end

section
/-! SUPPORT. The assembler forms (rules R80, R87): an instruction's form is assembled to the instruction. -/

namespace Sys2Proof.Machine

/-- Assembling undoes the form; the shifts have one form at y = 0 and another elsewhere. -/
theorem assemble_assembly (i : Instr) : i.assembly.assemble = some i := by
  cases i
  case shr x y | shl x y =>
    simp only [Instr.assembly, shiftForm]
    split
    case isTrue hy => exact hy ▸ rfl
    case isFalse => rfl
  all_goals rfl

/-- No two instructions share a form. -/
theorem assembly_injective : Function.Injective Instr.assembly := fun i j h =>
  Option.some.inj ((assemble_assembly i).symm.trans ((congrArg AsmForm.assemble h).trans (assemble_assembly j)))

/-- Settles O12: a form that assembles to its instruction belongs to no other, and the shifts' four forms are assembled by
evaluation. -/
theorem assemblyNamesTheInstruction : Obligations.AssemblyNamesTheInstruction :=
  ⟨assemble_assembly, fun _ _ h => assembly_injective h, fun _ _ => ⟨rfl, rfl, rfl, rfl⟩⟩

end Sys2Proof.Machine
end

section
/-! SUPPORT. The step's statements (rules R102 to R106, R281, R287): a running step runs the decoded instruction, ends with
the error of rule R281's table or none, and Fx0A waits in place. -/

namespace Sys2Proof.Machine

/-- An error of a step halts the fetched and advanced state with the fetched word and the fetch address (rules R281, R288). -/
theorem State.fetched_raise (s : State) (k : ErrorKind) (info : Option Nat) :
    s.fetched.raise k info =
      { s with opcode := s.fetchWord, pc := s.pc + 2 }.haltedWith ⟨k, some s.fetchWord, some s.pc, info⟩ := by
  rw [State.raise, State.errorRecord, State.fetched_fetchAddr]
  rfl

/-- A running state whose word decodes runs the instruction (rule R104). -/
theorem step_of_decode_ok {s : State} {i : Instr} (hr : s.status = .running) (hd : decodeWord s.fetchWord = .ok i) :
    step s = exec i s.fetched := by
  rw [step_of_running hr, hd]
  rfl

/-- A running state whose word is Unknown raises UnknownOpcode (rule R103). -/
theorem step_of_decode_error {s : State} {e : DecodeReject} (hr : s.status = .running)
    (hd : decodeWord s.fetchWord = .error e) : step s = .next (s.fetched.raise .unknownOpcode none) := by
  rw [step_of_running hr, hd]
  rfl

/-- Settles O13: the two answers of the decoder are the two cases of a running step. -/
theorem stepRunsTheDecodedInstruction : Obligations.StepRunsTheDecodedInstruction := fun s hr =>
  ⟨fun _ hd => step_of_decode_ok hr hd, fun _ hd => by rw [step_of_decode_error hr hd, State.fetched_raise]⟩

/-- The condition under which instruction i errs in state s (rule R281); all but four instructions have none. -/
def State.ErrorCondition (s : State) : Instr → Prop
  | .call _ => s.sp.val = 16
  | .ret => s.sp.val = 0
  | .skp x => (s.reg x).toNat > 15
  | .sknp x => (s.reg x).toNat > 15
  | _ => False

/-- An instruction whose error condition does not hold leaves the status. -/
theorem exec_status {i : Instr} {s t : State} (h : exec i s = .next t) (hc : ¬s.ErrorCondition i) : t.status = s.status := by
  cases exec_effect h with
  | overflow _ hsp => exact absurd hsp hc
  | underflow hsp => exact absurd hsp hc
  | invalidKey x hi hx => obtain rfl | rfl := hi <;> exact absurd hx hc
  | registers | random | clear | draw | counter | push | pop | index | store | delayTimer | soundTimer => rfl

theorem exec_call_of_full {s : State} (nnn : Addr) (h : s.sp.val = 16) :
    exec (.call nnn) s = .next (s.raise .stackOverflow none) :=
  dif_neg (by omega)

theorem exec_ret_of_empty {s : State} (h : s.sp.val = 0) : exec .ret s = .next (s.raise .stackUnderflow none) :=
  if_pos h

theorem exec_skp_of_gt {s : State} {x : Reg} (h : (s.reg x).toNat > 15) :
    exec (.skp x) s = .next (s.raise .invalidKeyIndex (some (s.reg x).toNat)) := by
  simp only [exec, execSkp, keyIndex_eq_none.mpr h]

theorem exec_sknp_of_gt {s : State} {x : Reg} (h : (s.reg x).toNat > 15) :
    exec (.sknp x) s = .next (s.raise .invalidKeyIndex (some (s.reg x).toNat)) := by
  simp only [exec, execSknp, keyIndex_eq_none.mpr h]

/-- An instruction whose error condition holds raises the error of its row of rule R281's table. -/
theorem exec_raises_expectedError {i : Instr} {s : State} (hd : decodeWord s.fetchWord = .ok i) (hc : s.ErrorCondition i) :
    ∃ k info, exec i s.fetched = .next (s.fetched.raise k info) ∧
      s.expectedError = some ⟨k, some s.fetchWord, some s.pc, info⟩ := by
  unfold State.expectedError
  rw [hd]
  cases i with
  | call nnn => exact ⟨_, _, exec_call_of_full nnn hc, if_pos hc⟩
  | ret => exact ⟨_, _, exec_ret_of_empty hc, if_pos hc⟩
  | skp x => exact ⟨_, _, exec_skp_of_gt hc, if_pos hc⟩
  | sknp x => exact ⟨_, _, exec_sknp_of_gt hc, if_pos hc⟩
  | _ => exact hc.elim

/-- A decoded instruction whose error condition does not hold meets no condition of rule R281's table. -/
theorem State.expectedError_eq_none {i : Instr} {s : State} (hd : decodeWord s.fetchWord = .ok i)
    (hc : ¬s.ErrorCondition i) : s.expectedError = none := by
  unfold State.expectedError
  rw [hd]
  cases i with
  | call | ret | skp | sknp => exact if_neg hc
  | _ => rfl

/-- An Unknown word meets the first condition of rule R281's table (rule R287). -/
theorem State.expectedError_of_decode_error {s : State} {e : DecodeReject} (hd : decodeWord s.fetchWord = .error e) :
    s.expectedError = some ⟨.unknownOpcode, some s.fetchWord, some s.pc, none⟩ := by
  unfold State.expectedError
  rw [hd]

/-- Settles O17: decode errs first; a decoded instruction raises its row's error when the row's condition holds, and leaves
the session running when it does not. -/
theorem runningStepAnswersWithTheTablesError : Obligations.RunningStepAnswersWithTheTablesError := by
  intro s hr
  cases hd : decodeWord s.fetchWord with
  | error e =>
    refine ⟨_, step_of_decode_error hr hd, ?_⟩
    rw [State.fetched_raise, State.expectedError_of_decode_error hd]
    rfl
  | ok i =>
    rw [step_of_decode_ok hr hd]
    by_cases hc : s.ErrorCondition i
    · obtain ⟨k, info, hx, he⟩ := exec_raises_expectedError hd hc
      refine ⟨_, hx, ?_⟩
      rw [State.fetched_raise, he]
      rfl
    · obtain ⟨t, ht⟩ := exec_next i s.fetched
      have hkept : t.status = .running := (exec_status ht hc).trans hr
      exact ⟨t, ht, by rw [hkept, State.expectedError_eq_none hd hc, statusAfter]⟩

/-- No key is found exactly when none is pressed (rule R225). -/
theorem State.firstKey_eq_none {s : State} : s.firstKey = none ↔ ∀ k, s.key.get k = false := by
  simp [State.firstKey, State.keyDown]

/-- Fx0A with no key pressed takes pc back to its own address (rule R225). -/
theorem exec_ldVxK_of_no_key {s : State} (x : Reg) (h : ∀ k, s.key.get k = false) :
    exec (.ldVxK x) s = .next (s.jump (s.pc - 2)) := by
  simp only [exec, execLdVxK, State.firstKey_eq_none.mpr h]

/-- Going back to the fetch address undoes the advance, and of the fetch only opcode stays. -/
theorem State.fetched_jump_back (s : State) : s.fetched.jump (s.fetched.pc - 2) = { s with opcode := s.fetchWord } :=
  congrArg s.fetched.jump s.fetched_fetchAddr

/-- Settles O45: the fetched instruction is the Fx0A, whose jump back undoes the advance. -/
theorem waitForKeySpins : Obligations.WaitForKeySpins := by
  intro x s hr hf hk
  rw [step_of_fetchWord_encode hr hf, exec_ldVxK_of_no_key (s := s.fetched) x hk, State.fetched_jump_back, hf]

end Sys2Proof.Machine
end

section
/-! SUPPORT. The statements of the loads, arithmetic, logic and the random byte (41_arith_logic.md): the two shapes an
instruction's writes have, the results and flags as numbers, and the generator's first bytes. -/

namespace Sys2Proof.Machine

/-- A write of one register has the frame of an instruction that writes that register only. -/
theorem State.writesRegs_setReg (s : State) (x : Reg) (v : Byte) : WritesRegs s (s.setReg x v) (· = x) where
  rest := s.setReg_frame x v
  kept _ h := s.reg_setReg_ne v h
  bytes _ := rfl

/-- The two writes of rule R121 leave the result and the flag as its two cases, x = 15 or not, say. -/
theorem State.flagResult_writeFlagResult (s : State) (x : Reg) {res f : Byte} {m n : Nat} (hres : res.toNat = m)
    (hflag : f.toNat = n) : FlagResult s (s.writeFlagResult x res f) x m n where
  frame :=
    { rest := s.writeFlagResult_frame x res f
      kept := fun r hr => by
        obtain ⟨hx, hvf⟩ := not_or.mp hr
        rw [State.reg_writeFlagResult, if_neg (fun h => hvf h.1), if_neg hx]
      bytes := fun a => by rw [State.writeFlagResult_frame]; rfl }
  result hx := by rw [State.reg_writeFlagResult, if_neg (fun h => hx h.1), if_pos rfl, hres]
  flag hx := by rw [State.reg_writeFlagResult, if_pos ⟨rfl, fun h => absurd h.symm hx⟩, hflag]
  both hx := by
    subst hx hres hflag
    rw [State.reg_writeFlagResult]
    cases s.cfg.vfOrder <;> rfl

/-- A flag byte as the number its condition gives. -/
theorem toNat_flagByte_decide (p : Prop) [Decidable p] : (flagByte (decide p)).toNat = if p then 1 else 0 := by
  by_cases h : p <;> simp [flagByte, h]

/-- 8xy6's flag as a number (rule R131). -/
theorem toNat_shiftRightFlag (a : Byte) : (shiftRightFlag a).toNat = a.toNat % 2 :=
  (BitVec.toNat_and ..).trans (Nat.and_one_is_mod _)

/-- 8xyE's flag as a number: of a byte shifted right by 7 only bit 7 is left (rule R132). -/
theorem toNat_shiftLeftFlag (a : Byte) : (shiftLeftFlag a).toNat = a.toNat / 128 := by
  have hbit : (shiftLeftFlag a).toNat = a.toNat / 128 % 2 := by
    rw [shiftLeftFlag, ← shiftRightFlag, toNat_shiftRightFlag, BitVec.toNat_ushiftRight, Nat.shiftRight_eq_div_pow]
  omega

/-- The difference of two bytes wraps as the integer remainder does (rules R129, R130). -/
theorem toNat_byte_sub (a b : Byte) : (a - b).toNat = (((a.toNat : Int) - (b.toNat : Int)) % 256).toNat := by
  rw [BitVec.toNat_sub]
  omega

theorem toNat_byte_shiftLeft_one (a : Byte) : (a <<< 1).toNat = a.toNat * 2 % 256 := by
  rw [BitVec.toNat_shiftLeft, Nat.shiftLeft_eq]

/-- Settles O20: both write one register, the second the wrapped sum (rules R122, R123). -/
theorem immediateLoadAndAdd : Obligations.ImmediateLoadAndAdd := fun x kk s =>
  ⟨⟨_, rfl, s.reg_setReg_same x kk, s.writesRegs_setReg x kk⟩,
    ⟨_, rfl, by rw [State.reg_setReg_same, BitVec.toNat_add], s.writesRegs_setReg x _⟩⟩

/-- Settles O21: each writes one register, and the operators act bit by bit (rules R124 to R127). -/
theorem registerLogic : Obligations.RegisterLogic := by
  intro x y s
  refine ⟨⟨_, rfl, ?copy, s.writesRegs_setReg x _⟩, ⟨_, rfl, fun b _ => ?or, s.writesRegs_setReg x _⟩,
    ⟨_, rfl, fun b _ => ?and, s.writesRegs_setReg x _⟩, ⟨_, rfl, fun b _ => ?xor, s.writesRegs_setReg x _⟩⟩
  case copy => exact s.reg_setReg_same x _
  case or => rw [State.reg_setReg_same, BitVec.getLsbD_or]
  case and => rw [State.reg_setReg_same, BitVec.getLsbD_and]
  case xor => rw [State.reg_setReg_same, BitVec.getLsbD_xor]

/-- Settles O22: the result and the flag of `WriteFlagResult` are the wrapped sum and the carry (rule R128). -/
theorem addSetsCarry : Obligations.AddSetsCarry := fun x _ s =>
  ⟨_, rfl, s.flagResult_writeFlagResult x (BitVec.toNat_add ..) (toNat_flagByte_decide _)⟩

/-- Settles O23: the result and the flag of `WriteFlagResult` are Vx - Vy and Vx > Vy (rule R129). -/
theorem subSetsStrictNoBorrow : Obligations.SubSetsStrictNoBorrow := fun x _ s =>
  ⟨_, rfl, s.flagResult_writeFlagResult x (toNat_byte_sub ..) (toNat_flagByte_decide _)⟩

/-- Settles O24: the result and the flag of `WriteFlagResult` are Vy - Vx and Vy > Vx (rule R130). -/
theorem subnSetsStrictNoBorrow : Obligations.SubnSetsStrictNoBorrow := fun x _ s =>
  ⟨_, rfl, s.flagResult_writeFlagResult x (toNat_byte_sub ..) (toNat_flagByte_decide _)⟩

/-- Settles O25: the result and the flag of `WriteFlagResult` are half of Vx and its bit 0 (rule R131). -/
theorem shiftRightMovesBitZeroOut : Obligations.ShiftRightMovesBitZeroOut := fun x _ s =>
  ⟨_, rfl, s.flagResult_writeFlagResult x (BitVec.toNat_ushiftRight ..) (toNat_shiftRightFlag _)⟩

/-- Settles O26: the result and the flag of `WriteFlagResult` are the wrapped double of Vx and its bit 7 (rule R132). -/
theorem shiftLeftMovesBitSevenOut : Obligations.ShiftLeftMovesBitSevenOut := fun x _ s =>
  ⟨_, rfl, s.flagResult_writeFlagResult x (toNat_byte_shiftLeft_one _) (toNat_shiftLeftFlag _)⟩

/-- Settles O28: the advance is by definition its three xor-shifts, and a register write follows it (rules R133, R151). -/
theorem randomAdvancesTheGeneratorOnce : Obligations.RandomAdvancesTheGeneratorOnce := fun x _ _ =>
  ⟨_, _, _, rfl, rfl, rfl, rfl, State.reg_setReg_same _ x _, fun _ h => State.reg_setReg_ne _ _ h, fun _ => rfl, rfl⟩

/-- Settles O30: the bytes are evaluated, and the coercion is the case split of `seedRng` (rules R150, R152). -/
theorem generatorFirstBytes : Obligations.GeneratorFirstBytes :=
  ⟨by decide, if_pos rfl, fun _ h => if_neg h⟩

end Sys2Proof.Machine
end

section
/-! SUPPORT. Control flow (42_control_flow.md): what the jumps, the skips, CALL's push and RET's pop leave in pc, sp and the
stack, and the statements about them. -/

namespace Sys2Proof.Machine

@[simp] theorem toNat_zext16 (nnn : Addr) : (zext16 nnn).toNat = nnn.toNat :=
  BitVec.toNat_setWidth_of_le (by omega)

/-- Bnnn's sum fits 16 bits, so it does not wrap (rule R168). -/
theorem State.toNat_v0Target (s : State) (nnn : Addr) : (s.v0Target nnn).toNat = nnn.toNat + (s.reg 0).toNat := by
  have hnnn := nnn.isLt
  have hreg := (s.reg 0).isLt
  rw [State.v0Target, BitVec.toNat_add, toNat_zext16, BitVec.toNat_setWidth_of_le (by omega)]
  omega

theorem State.writesPc_jump (s : State) (a : Word) : WritesPc s (s.jump a) where
  rest := rfl
  bytes _ := rfl

/-- A skip has the frame of a write of pc, whether it is taken or not (rule R160). -/
theorem State.writesPc_skipIf (s : State) (c : Bool) : WritesPc s (s.skipIf c) := by
  rw [State.skipIf_eq]
  exact s.writesPc_jump _

/-- The pc after a skip whose test c decides the condition p (rule R160). -/
theorem State.toNat_pc_skipIf (s : State) {c : Bool} {p : Prop} [Decidable p] (h : c = true ↔ p) :
    (s.skipIf c).pc.toNat = if p then (s.pc.toNat + 2) % 65536 else s.pc.toNat := by
  rw [State.skipIf_eq, apply_ite BitVec.toNat, BitVec.toNat_add]
  exact if_congr h rfl rfl

/-- An error of the execute stage halts with the opcode and the fetch address pc - 2 (rules R102, R281, R288). -/
theorem State.raise_eq_haltedWith (s : State) (k : ErrorKind) (info : Option Nat) :
    s.raise k info = s.haltedWith ⟨k, some s.opcode, some (s.pc - 2), info⟩ := rfl

theorem exec_call_of_lt {s : State} (nnn : Addr) (h : s.sp.val < 16) :
    exec (.call nnn) s = .next ((s.push h).jump (zext16 nnn)) :=
  dif_pos h

theorem exec_ret_of_ne_zero {s : State} (h : s.sp.val ≠ 0) : exec .ret s = .next s.pop :=
  if_neg h

/-- A push leaves pc at the depth it found and every other entry as it was (rule R162). -/
theorem State.get_stack_push (s : State) (h : s.sp.val < 16) (k : Fin 16) :
    (s.push h).stack.get k = if k.val = s.sp.val then s.pc else s.stack.get k := by
  simp only [State.push, Vector.get_eq_getElem, Vector.getElem_set, eq_comm]

/-- A pop returns to the topmost entry of the stack (rule R161). -/
theorem State.pc_pop {s : State} {k : Fin 16} (h : s.sp.val = k.val + 1) : s.pop.pc = s.stack.get k := by
  simp only [State.pop, h, Nat.add_sub_cancel, Vector.get_eq_getElem]

/-- A pop after a push, whatever pc and opcode the jump and the next fetch left between, takes back pc and sp; of the push
the entry stays. -/
theorem State.pop_push (s : State) (h : s.sp.val < 16) (w q : Word) :
    { s.push h with opcode := w, pc := q }.pop = { s with stack := (s.push h).stack, opcode := w } := by
  have hpc : { s.push h with opcode := w, pc := q }.pop.pc = s.pc :=
    (State.pc_pop (k := ⟨s.sp.val, h⟩) (s.push_sp h)).trans ((s.get_stack_push h _).trans (if_pos rfl))
  exact congrArg (fun p => { s with stack := (s.push h).stack, opcode := w, pc := p }) hpc

/-- Settles O34: below a full stack CALL pushes, RET then finds a stack that is not empty, and its pop undoes the push. -/
theorem callThenReturnRoundTrip : Obligations.CallThenReturnRoundTrip := by
  intro nnn s w q h
  refine ⟨_, _, exec_call_of_lt nnn h, exec_ret_of_ne_zero (Nat.succ_ne_zero _), s.pop_push h w q, fun k hk => ?_⟩
  exact (s.get_stack_push h k).trans (if_neg hk)

/-- Settles O31: both answer a jump, the second to the sum of `State.v0Target` (rules R163, R168). -/
theorem jumpsWriteTheTarget : Obligations.JumpsWriteTheTarget := fun nnn s =>
  ⟨⟨_, rfl, toNat_zext16 nnn, s.writesPc_jump _⟩, ⟨_, rfl, s.toNat_v0Target nnn, s.writesPc_jump _⟩⟩

/-- Settles O32: below a full stack CALL is a push and a jump, at sp = 16 it raises (rule R162). -/
theorem callPushesOrOverflows : Obligations.CallPushesOrOverflows := by
  refine fun nnn s => ⟨fun h => ?pushes, fun h => ?overflows⟩
  case pushes =>
    exact ⟨_, exec_call_of_lt nnn h, toNat_zext16 nnn, s.push_sp h, s.get_stack_push h, fun _ => rfl, fun _ => rfl, rfl⟩
  case overflows => rw [exec_call_of_full nnn h, State.raise_eq_haltedWith]

/-- Settles O33: RET of a stack that is not empty is a pop, at sp = 0 it raises (rule R161). -/
theorem returnPopsOrUnderflows : Obligations.ReturnPopsOrUnderflows := by
  refine fun s => ⟨fun k h => ?pops, fun h => ?underflows⟩
  case pops =>
    have hsp : s.pop.sp.val = k.val := by rw [State.pop_sp, h, Nat.add_sub_cancel]
    exact ⟨_, exec_ret_of_ne_zero (by omega), State.pc_pop h, hsp, fun _ => rfl, fun _ => rfl, rfl⟩
  case underflows => rw [exec_ret_of_empty h, State.raise_eq_haltedWith]

/-- Settles O35: each is `State.skipIf` of the test of its condition (rules R164 to R167). -/
theorem skipsAddTwoWhenTaken : Obligations.SkipsAddTwoWhenTaken := fun _ _ _ s =>
  ⟨⟨_, rfl, s.writesPc_skipIf _, s.toNat_pc_skipIf beq_iff_eq⟩,
    ⟨_, rfl, s.writesPc_skipIf _, s.toNat_pc_skipIf bne_iff_ne⟩,
    ⟨_, rfl, s.writesPc_skipIf _, s.toNat_pc_skipIf beq_iff_eq⟩,
    ⟨_, rfl, s.writesPc_skipIf _, s.toNat_pc_skipIf bne_iff_ne⟩⟩

end Sys2Proof.Machine
end

section
/-! SUPPORT. The index register and memory transfers (43_memory_transfer.md): the values I takes, a block stored from I on and
a block loaded from it, and the statements about them. -/

namespace Sys2Proof.Machine

/-- Fx29's address fits 16 bits for every Vx, so it does not wrap (rule R192). -/
theorem State.toNat_glyphAddr (s : State) (x : Reg) :
    (s.glyphAddr x).toNat = s.cfg.fontBase.toNat + 5 * (s.reg x).toNat := by
  have hbase := s.cfg.fontBase.isLt
  have hreg := (s.reg x).isLt
  have hfive : (5 : Word).toNat = 5 := rfl
  rw [State.glyphAddr, BitVec.toNat_add, BitVec.toNat_mul, toNat_zext16, BitVec.toNat_setWidth_of_le (by omega), hfive]
  omega

/-- A block stored from I on changes the bytes at I, I + 1, … and nothing else (rules R51, R196). -/
theorem State.storesBytes_memWriteBlock {s : State} (hm : s.mem.wf = true) (bs : List Byte) :
    StoresBytes s (s.memWriteBlock (s.dataAddr 0) bs) bs.length where
  rest := rfl
  bytes _ h := Memory.read_writeBlock_other hm h

/-- Byte i of Fx55's block is read back at I + i as Vi (rule R194). -/
theorem State.memRead_memWriteBlock_regBlock {s : State} (hm : s.mem.wf = true) {x i : Reg} (hi : i ≤ x) :
    (s.memWriteBlock (s.dataAddr 0) (s.regBlock x)).memRead (s.dataAddr i.val) = s.reg i := by
  have hlen := s.length_regBlock x
  have hk : i.val < (s.regBlock x).length := hlen ▸ Nat.lt_succ_of_le hi
  rw [State.memRead_memWriteBlock_dataAddr hm (by omega) hk, State.getElem_regBlock]

/-- Digit k of Fx33's block is read back at I + k (rule R193). -/
theorem State.toNat_memRead_memWriteBlock_bcdDigits {s : State} (hm : s.mem.wf = true) (v : Byte) (k : Fin 3) :
    ((s.memWriteBlock (s.dataAddr 0) (bcdDigits v)).memRead (s.dataAddr k.val)).toNat = v.toNat / 10 ^ (2 - k.val) % 10 := by
  rw [State.memRead_memWriteBlock_dataAddr hm (by simp [bcdDigits]) k.isLt, toNat_getElem_bcdDigits]

/-- Fx65's block replaces V0 to Vx by the bytes at I, I + 1, … and no register above (rule R195). -/
theorem State.reg_setRegBlock_memReadBlock (s : State) (x i : Reg) :
    (s.setRegBlock (s.memReadBlock (s.dataAddr 0) (x.val + 1))).reg i =
      if i ≤ x then s.memRead (s.dataAddr i.val) else s.reg i := by
  have hlen : (s.memReadBlock (s.dataAddr 0) (x.val + 1)).length = x.val + 1 := Memory.length_readBlock _ _ _
  rw [State.reg_setRegBlock]
  split_ifs with hi
  · have hk := (Nat.lt_succ_of_le hi).trans_eq hlen.symm
    rw [List.getD_eq_getElem _ _ hk]
    exact Memory.getElem_readBlock _ _ _ _ hk
  · exact List.getD_eq_default _ _ (hlen.trans_le (Nat.lt_of_not_le hi))

/-- Settles O38: Fx55 stores the block of V0 to Vx from I on (rule R194). -/
theorem storeRegistersWritesTheBlock : Obligations.StoreRegistersWritesTheBlock := fun x s hm =>
  ⟨_, rfl, fun _ hi => State.memRead_memWriteBlock_regBlock hm hi,
    s.length_regBlock x ▸ State.storesBytes_memWriteBlock hm (s.regBlock x)⟩

/-- Settles O40: the load reads V0 to Vx where the store put them, and the registers above stay (rules R194, R195). -/
theorem loadUndoesStore : Obligations.LoadUndoesStore := by
  refine fun x s v hm => ⟨_, _, rfl, rfl, rfl, fun i => ?_⟩
  rw [State.reg_setRegBlock_memReadBlock]
  split_ifs with hi
  · exact State.memRead_memWriteBlock_regBlock hm hi
  · rfl

/-- Settles O36: each writes I alone; Fx1E's sum wraps, those of Annn and Fx29 fit (rules R190 to R192). -/
theorem indexRegisterWrites : Obligations.IndexRegisterWrites := by
  refine fun nnn x s => ⟨⟨_, rfl, toNat_zext16 nnn, rfl, fun _ => rfl⟩, ⟨_, rfl, ?sum, rfl, fun _ => rfl⟩,
    ⟨_, rfl, s.toNat_glyphAddr x, rfl, fun _ => rfl⟩⟩
  case sum => rw [BitVec.toNat_add, BitVec.toNat_setWidth_of_le (by omega)]

/-- Settles O37: Fx33 stores the block of the three digits from I on; a byte's hundreds are below 10 (rule R193). -/
theorem bcdStoresThreeDigits : Obligations.BcdStoresThreeDigits := by
  intro x s hm
  have hdigit := State.toNat_memRead_memWriteBlock_bcdDigits hm (s.reg x)
  have hhundreds : (s.reg x).toNat / 100 % 10 = (s.reg x).toNat / 100 := by
    have hreg := (s.reg x).isLt
    omega
  have hones : (s.reg x).toNat / 1 % 10 = (s.reg x).toNat % 10 := by rw [Nat.div_one]
  exact ⟨_, rfl, (hdigit 0).trans hhundreds, hdigit 1, (hdigit 2).trans hones, State.storesBytes_memWriteBlock hm _⟩

/-- Settles O39: Fx65 replaces V0 to Vx by the bytes read from I on (rule R195). -/
theorem loadRegistersReadsTheBlock : Obligations.LoadRegistersReadsTheBlock := fun x s =>
  ⟨_, rfl, fun i hi => (s.reg_setRegBlock_memReadBlock x i).trans (if_pos hi),
    { rest := rfl
      kept := fun r hr => (s.reg_setRegBlock_memReadBlock x r).trans (if_neg hr)
      bytes := fun _ => rfl }⟩

end Sys2Proof.Machine
end

section
/-! SUPPORT. What a host operation can do, said once over all seven (rule R297), and that each keeps the invariant. -/

namespace Sys2Proof.Machine

theorem tick_of_halted {s : State} {e : ErrorRecord} (h : s.status = .halted e) : tick s = .fault (.halted e) := by
  unfold tick
  split
  case h_1 hs => rw [Status.halted.inj (hs.symm.trans h)]
  case h_2 hs => cases hs.symm.trans h

theorem setKeypad_of_halted {s : State} {e : ErrorRecord} (k : Vector Bool 16) (h : s.status = .halted e) :
    setKeypad k s = .fault (.halted e) := by
  unfold setKeypad
  split
  case h_1 hs => rw [Status.halted.inj (hs.symm.trans h)]
  case h_2 hs => cases hs.symm.trans h

/-- A tick answers a running state only, with its timers counted down (rules R230, R286). -/
theorem tick_eq_next {s t : State} : tick s = .next t ↔ s.status = .running ∧ t = s.ticked := by
  cases hs : s.status with
  | running => simp [tick_of_running hs, eq_comm]
  | halted e => simp [tick_of_halted hs]

/-- A keypad write answers a running state only, with its keys replaced (rules R296, R297). -/
theorem setKeypad_eq_next {k : Vector Bool 16} {s t : State} :
    setKeypad k s = .next t ↔ s.status = .running ∧ t = { s with key := k } := by
  cases hs : s.status with
  | running => simp [setKeypad_of_running k hs, hs, eq_comm]
  | halted e => simp [setKeypad_of_halted k hs]

/-- An operation that answers nothing writes the machine's next state and leaves the phase. -/
theorem Session.runQuiet_eq_some {s u : Session} {o : Host.Outcome State Fault Refusal} {r : HostResult} :
    s.runQuiet o = some (u, r) ↔ ∃ t, o = .next t ∧ u = ⟨t, s.phase⟩ ∧ r = .none := by
  cases o <;> simp [Session.runQuiet, eq_comm]

/-- A step of the session writes the machine's next state and answers by its status (rule R106). -/
theorem Session.runStep_eq_some {s u : Session} {r : HostResult} :
    s.runStep = some (u, r) ↔ ∃ t, step s.machine = .next t ∧ u = ⟨t, .executing⟩ ∧ r = stepResult t := by
  unfold Session.runStep
  cases step s.machine <;> simp [eq_comm]

/-- The two results of a step (rule R106). -/
theorem stepResult_cases (t : State) :
    (t.status = .running ∧ stepResult t = .ok) ∨ ∃ e, t.status = .halted e ∧ stepResult t = .err e := by
  unfold stepResult
  cases t.status <;> simp

theorem Session.runLoad_of_le {bytes : List Byte} (h : bytes.length ≤ maxRomLength) (s : Session) :
    s.runLoad bytes = (⟨s.machine.memWriteBlock programStart.toNat bytes, .loaded⟩, .ok) := by
  simp only [Session.runLoad, loadRom_of_le h]

theorem Session.runLoad_of_gt {bytes : List Byte} (h : bytes.length > maxRomLength) (s : Session) :
    s.runLoad bytes = (s, .err (romTooLarge bytes.length)) := by
  simp only [Session.runLoad, loadRom_of_gt h]

/-- `load` does what rule R297's table says of it, whether the ROM fits or not (rule R323). -/
theorem hostMove_load (bytes : List Byte) (s : Session) :
    HostMove (.load bytes) s (s.runLoad bytes).1 (s.runLoad bytes).2 := by
  rcases Nat.lt_or_ge maxRomLength bytes.length with h | h
  · rw [Session.runLoad_of_gt h]
    exact .inr ⟨h, rfl, rfl⟩
  · rw [Session.runLoad_of_le h]
    exact .inl ⟨h, rfl, _, loadRom_of_le h _, rfl⟩

/-- An operation that is enabled does what rule R297's table says of it. -/
theorem hostMove_of_run {op : HostOp} {s u : Session} {r : HostResult} (h : Session.run op s = some (u, r)) :
    HostMove op s u r := by
  cases op <;> simp only [Session.run, Option.ite_none_left_eq_some, Option.ite_none_right_eq_some] at h <;>
    obtain ⟨-, h⟩ := h
  case init p => cases h; exact ⟨rfl, rfl⟩
  case load bytes =>
    have hmove := hostMove_load bytes s
    rwa [Option.some.inj h] at hmove
  case step =>
    obtain ⟨t, ht, rfl, rfl⟩ := Session.runStep_eq_some.mp h
    exact ⟨t, ht, rfl, stepResult_cases t⟩
  case tick | setKeypad => exact Session.runQuiet_eq_some.mp h
  case readDisplay | readStatus => cases h; exact ⟨rfl, rfl⟩

/-- A block stored in memory keeps the invariant, running or halted: a record speaks of no byte of memory. -/
theorem State.Inv.memWriteBlock {s : State} (hs : s.Inv) (a : Nat) (bs : List Byte) : (s.memWriteBlock a bs).Inv where
  memory := Memory.wf_writeBlock hs.memory a bs
  generator := hs.generator
  font := hs.font
  record := hs.record

/-- A ROM load that succeeds keeps the invariant (rule R323). -/
theorem State.Inv.loadRom {s t : State} (hs : s.Inv) {bytes : List Byte} (h : loadRom bytes s = .ok t) : t.Inv := by
  rcases Nat.lt_or_ge maxRomLength bytes.length with hl | hl
  · rw [loadRom_of_gt hl] at h
    cases h
  · rw [loadRom_of_le hl] at h
    cases h
    exact hs.memWriteBlock _ _

/-- Settles O6: `init` meets the invariant afresh, a step and a load keep it, a tick and a keypad write touch nothing it speaks
of in a running state, and the rest leave the session. -/
theorem hostOperationsKeepTheInvariant : Obligations.HostOperationsKeepTheInvariant := by
  intro op s u r hfont hs h
  have hmove := hostMove_of_run h
  cases op with
  | init p =>
    obtain ⟨rfl, -⟩ := hmove
    exact initMeetsTheInvariant p (hfont p rfl)
  | load bytes =>
    obtain ⟨-, -, t, ht, rfl⟩ | ⟨-, rfl, -⟩ := hmove
    · exact hs.loadRom ht
    · exact hs
  | step =>
    obtain ⟨t, ht, rfl, -⟩ := hmove
    exact stepKeepsTheInvariant _ _ hs ht
  | tick =>
    obtain ⟨t, ht, rfl, -⟩ := hmove
    obtain ⟨hr, rfl⟩ := tick_eq_next.mp ht
    exact State.inv_of_running hs.memory hs.generator hs.font hr
  | setKeypad k =>
    obtain ⟨t, ht, rfl, -⟩ := hmove
    obtain ⟨hr, rfl⟩ := setKeypad_eq_next.mp ht
    exact State.inv_of_running hs.memory hs.generator hs.font hr
  | readDisplay | readStatus =>
    obtain ⟨rfl, -⟩ := hmove
    exact hs

end Sys2Proof.Machine
end

section
/-! SUPPORT. The timers' ticks (rule R230) and one frame of the host schedule (rules R321, R334). -/

namespace Sys2Proof.Machine

theorem countdown_eq (t : Byte) : countdown t = if t = 0 then 0 else t - 1 := by
  by_cases h : t = 0
  · rw [h]
    rfl
  · have hpos : t.toNat > 0 := by bv_omega
    rw [countdown, if_pos hpos, if_neg h]

@[simp] theorem State.toNat_DT_ticked (s : State) : s.ticked.DT.toNat = s.DT.toNat - 1 := toNat_countdown s.DT

@[simp] theorem State.toNat_ST_ticked (s : State) : s.ticked.ST.toNat = s.ST.toNat - 1 := toNat_countdown s.ST

/-- The first of n + 1 ticks of a running state leaves the other n to run. -/
theorem runTicks_succ_of_running {s : State} (n : Nat) (h : s.status = .running) :
    runTicks (n + 1) s = runTicks n s.ticked := by
  rw [runTicks, tick_of_running h]

/-- n ticks of a running state take n off each timer, down to 0, and change nothing else (rule R230). -/
theorem runTicks_of_running (n : Nat) {s : State} (h : s.status = .running) : ∃ t, runTicks n s = .next t ∧
    t.DT.toNat = s.DT.toNat - n ∧ t.ST.toNat = s.ST.toNat - n ∧ t = { s with DT := t.DT, ST := t.ST } := by
  induction n generalizing s with
  | zero => exact ⟨s, rfl, rfl, rfl, rfl⟩
  | succ n ih =>
    obtain ⟨t, ht, hDT, hST, hrest⟩ := ih (s := s.ticked) h
    rw [State.toNat_DT_ticked] at hDT
    rw [State.toNat_ST_ticked] at hST
    exact ⟨t, (runTicks_succ_of_running n h).trans ht, by omega, by omega, hrest⟩

/-- Settles O46: one tick is two countdowns, and n of them are n in a row (rule R230). -/
theorem ticksCountDownToZero : Obligations.TicksCountDownToZero := by
  refine ⟨fun s h => ?_, fun _ _ => tick_of_halted, fun n _ => runTicks_of_running n⟩
  rw [tick_of_running h, State.ticked, countdown_eq, countdown_eq]

/-- The path that starts at s and goes on along `path`. -/
def consPath (s : State) (path : Nat → State) : Nat → State
  | 0 => s
  | i + 1 => path i

/-- No step at all. -/
theorem StepsAlong.refl (s : State) : StepsAlong (fun _ => s) 0 s s :=
  ⟨rfl, rfl, fun _ h => absurd h (Nat.not_lt_zero _)⟩

/-- One step from a running state, and then the steps of a path. -/
theorem StepsAlong.cons {path : Nat → State} {n : Nat} {s t u : State} (hr : s.status = .running) (hs : step s = .next t)
    (h : StepsAlong path n t u) : StepsAlong (consPath s path) (n + 1) s u := by
  obtain ⟨rfl, hlast, hsteps⟩ := h
  refine ⟨rfl, hlast, fun i hi => ?_⟩
  cases i with
  | zero => exact ⟨hr, hs⟩
  | succ i => exact hsteps i (Nat.lt_of_succ_lt_succ hi)

/-- A step writes neither the keypad nor the parameters (rules R36, R39). -/
theorem step_key_cfg {s t : State} (h : step s = .next t) : t.key = s.key ∧ t.cfg = s.cfg := by
  obtain ⟨-, ⟨e, -, rfl⟩ | ⟨i, -, hx⟩⟩ := step_cases h
  · exact ⟨rfl, rfl⟩
  · obtain ⟨-, hkey, hcfg, -⟩ := eachComponentHasItsOnlyWriters i _ t hx
    exact ⟨hkey, hcfg⟩

/-- Steps in a row write neither the keypad nor the parameters. -/
theorem StepsAlong.key_cfg {path : Nat → State} {n : Nat} {s t : State} (h : StepsAlong path n s t) :
    t.key = s.key ∧ t.cfg = s.cfg := by
  obtain ⟨rfl, rfl, hsteps⟩ := h
  induction n with
  | zero => exact ⟨rfl, rfl⟩
  | succ n ih =>
    obtain ⟨hkey, hcfg⟩ := ih fun i hi => hsteps i (Nat.lt_succ_of_lt hi)
    obtain ⟨hkey', hcfg'⟩ := step_key_cfg (hsteps n n.lt_succ_self).2
    exact ⟨hkey'.trans hkey, hcfg'.trans hcfg⟩

/-- A frame's steps from a running state: a chain of as many as asked, or of fewer when the last one returned Err (rule
R321). -/
theorem runSteps_of_running (ipf : Nat) {s : State} (hr : s.status = .running) : ∃ t n path, runSteps ipf s = .next t ∧
    StepsAlong path n s t ∧ n ≤ ipf ∧ (n < ipf → t.status ≠ .running) := by
  induction ipf generalizing s with
  | zero => exact ⟨s, 0, _, rfl, .refl s, Nat.le_refl 0, fun h => absurd h (Nat.lt_irrefl 0)⟩
  | succ ipf ih =>
    obtain ⟨t, hs, -⟩ := runningStepAnswersWithTheTablesError s hr
    by_cases ht : t.status = .running
    · obtain ⟨u, n, path, hu, hpath, hn, hhalt⟩ := ih ht
      exact ⟨u, n + 1, _, (runSteps_succ_of_running ipf hs ht).trans hu, hpath.cons hr hs, Nat.succ_le_succ hn,
        fun h => hhalt (Nat.lt_of_succ_lt_succ h)⟩
    · exact ⟨t, 1, _, runSteps_succ_of_halted ipf hs ht, (StepsAlong.refl t).cons hr hs, Nat.succ_le_succ ipf.zero_le,
        fun _ => ht⟩

theorem tickIfRunning_of_running {s : State} (h : s.status = .running) : tickIfRunning s = s.ticked := if_pos h

theorem tickIfRunning_of_halted {s : State} (h : s.status ≠ .running) : tickIfRunning s = s := if_neg h

@[simp] theorem tickIfRunning_key (s : State) : (tickIfRunning s).key = s.key := by
  unfold tickIfRunning
  split <;> rfl

@[simp] theorem tickIfRunning_cfg (s : State) : (tickIfRunning s).cfg = s.cfg := by
  unfold tickIfRunning
  split <;> rfl

/-- A frame of a running state is its steps from the state with the new keypad, and then the tick that ends it. -/
theorem runFrame_of_running {k : Vector Bool 16} {ipf : Nat} {s t : State} (hr : s.status = .running)
    (ht : runSteps ipf { s with key := k } = .next t) : runFrame k ipf s = .next (tickIfRunning t) := by
  simp only [runFrame, setKeypad_of_running k hr, ht]

/-- Settles O55: the steps are a chain that keeps the keypad and the parameters, and the tick is taken only in a running
state. -/
theorem frameHoldsTheKeypadFixed : Obligations.FrameHoldsTheKeypadFixed := by
  intro k ipf s hr
  obtain ⟨t, n, path, ht, hpath, hn, hhalt⟩ := runSteps_of_running ipf (s := { s with key := k }) hr
  obtain ⟨hkey, hcfg⟩ := hpath.key_cfg
  refine ⟨tickIfRunning t, t, n, path, runFrame_of_running hr ht, ht, hpath, hn, hhalt, hkey,
    (tickIfRunning_key t).trans hkey, (tickIfRunning_cfg t).trans hcfg, fun hrun => ?_, tickIfRunning_of_halted⟩
  rw [tickIfRunning_of_running hrun]
  exact ⟨t.toNat_DT_ticked, t.toNat_ST_ticked, rfl⟩

end Sys2Proof.Machine
end

section
/-! SUPPORT. The keypad and timer instructions (44_keypad_timer.md): the key a register names, the lowest pressed key, and the
statements about them. -/

namespace Sys2Proof.Machine

/-- Ex9E with Vx a key number skips when that key is pressed (rule R220). -/
theorem exec_skp_of_eq {s : State} {x : Reg} {k : Fin 16} (h : (s.reg x).toNat = k.val) :
    exec (.skp x) s = .next (s.skipIf (s.keyDown k)) := by
  simp only [exec, execSkp, keyIndex_eq_some.mpr h]

/-- ExA1 with Vx a key number skips when that key is not pressed (rule R221). -/
theorem exec_sknp_of_eq {s : State} {x : Reg} {k : Fin 16} (h : (s.reg x).toNat = k.val) :
    exec (.sknp x) s = .next (s.skipIf (!s.keyDown k)) := by
  simp only [exec, execSknp, keyIndex_eq_some.mpr h]

/-- Settles O42: both are `State.skipIf` of a test of the key Vx names, and raise when it names none (rules R220, R221). -/
theorem keySkipsTestTheKeyOrFail : Obligations.KeySkipsTestTheKeyOrFail := by
  refine fun x s => ⟨fun k hk => ?tests, fun h i hi => ?fails⟩
  case tests =>
    exact ⟨⟨_, exec_skp_of_eq hk, s.writesPc_skipIf _, s.toNat_pc_skipIf Iff.rfl⟩,
      ⟨_, exec_sknp_of_eq hk, s.writesPc_skipIf _, s.toNat_pc_skipIf (Bool.not_eq_true' _).to_iff⟩⟩
  case fails =>
    simp only [List.mem_cons, List.not_mem_nil, or_false] at hi
    obtain rfl | rfl := hi
    · rw [exec_skp_of_gt h, State.raise_eq_haltedWith]
    · rw [exec_sknp_of_gt h, State.raise_eq_haltedWith]

/-- Settles O43: each is one write, of Vx, DT or ST (rules R222 to R224). -/
theorem timerTransfersCopy : Obligations.TimerTransfersCopy := fun x s =>
  ⟨⟨_, rfl, s.reg_setReg_same x s.DT, s.writesRegs_setReg x s.DT⟩, ⟨_, rfl, rfl, rfl, fun _ => rfl⟩,
    ⟨_, rfl, rfl, rfl, fun _ => rfl⟩⟩

/-- The first key found in ascending order is a pressed one below which none is pressed (rule R225). -/
theorem State.firstKey_eq_some {s : State} {k : Fin 16} (hk : s.key.get k = true) (hlow : ∀ j < k, s.key.get j = false) :
    s.firstKey = some k := by
  rw [State.firstKey, List.find?_eq_some_iff_getElem]
  refine ⟨hk, k.val, by simp, by simp, fun j hj => ?_⟩
  simpa [State.keyDown] using hlow ⟨j, by omega⟩ hj

/-- Fx0A writes the key it finds to Vx (rule R225). -/
theorem exec_ldVxK_of_firstKey {s : State} {k : Fin 16} (x : Reg) (h : s.firstKey = some k) :
    exec (.ldVxK x) s = .next (s.setReg x (BitVec.ofNat 8 k.val)) := by
  simp only [exec, execLdVxK, h]

/-- Settles O44: the key found is the lowest pressed one and fits a byte, and with none Fx0A jumps back (rule R225). -/
theorem waitForKeyTakesTheLowestKey : Obligations.WaitForKeyTakesTheLowestKey := by
  refine fun x s => ⟨fun k hk hlow => ?pressed, exec_ldVxK_of_no_key x⟩
  case pressed =>
    have hbyte : (BitVec.ofNat 8 k.val).toNat = k.val := by
      rw [BitVec.toNat_ofNat, Nat.mod_eq_of_lt (by omega)]
    exact ⟨_, exec_ldVxK_of_firstKey x (State.firstKey_eq_some hk hlow), by rw [State.reg_setReg_same, hbyte],
      s.writesRegs_setReg x _⟩

end Sys2Proof.Machine
end

section
/-! SUPPORT. The display instructions (45_display.md): the blit's bits as rule R251's closed form, what one draw leaves, and
the statements about clearing and drawing. -/

namespace Sys2Proof.Machine

/-- The state that Dxyn leaves (rule R251). -/
def State.drawn (s : State) (x y : Reg) (n : Nibble) : State :=
  { s with disp := (s.blit x y n).1 }.setReg VF (flagByte (s.blit x y n).2)

theorem exec_drw (x y : Reg) (n : Nibble) (s : State) : exec (.drw x y n) s = .next (s.drawn x y n) := rfl

/-- Row i of the sprite is the byte at I + i (rules R196, R251). -/
theorem State.getD_spriteRows (s : State) {n : Nibble} {i : Nat} (hi : i < n.toNat) :
    (s.spriteRows n).getD i 0 = s.memRead (s.I.toNat + i) := by
  have hlen : i < (s.spriteRows n).length := hi.trans_eq (Memory.length_readBlock _ _ _).symm
  rw [List.getD_eq_getElem _ _ hlen]
  exact Memory.getElem_readBlock _ _ _ _ hlen

/-- Column j of a sprite row is bit 7 - j of its byte (rule R251). -/
theorem spriteBit_eq_getLsbD (row : Byte) {j : Nat} (hj : j < 8) : spriteBit row j = row.getLsbD (7 - j) := by
  rw [spriteBit, BitVec.getMsbD_eq_getLsbD, decide_eq_true hj, Bool.true_and]

/-- The bit of the blit's rows that falls on a cell is the one the closed form names (rule R251). -/
theorem State.rowsBit_spriteRows (s : State) (x y : Reg) (n : Nibble) (cx cy : Nat) :
    rowsBit (s.startColumn x) (s.startRow y) (s.spriteRows n) cx cy = s.spriteOn x y n cx cy := by
  have hlen : (s.spriteRows n).length = n.toNat := Memory.length_readBlock _ _ _
  simp only [rowsBit, State.spriteOn, hlen, State.startColumn, State.startRow]
  rw [Bool.eq_iff_iff, Bool.and_eq_true, Bool.and_eq_true, decide_eq_true_eq]
  refine and_congr_right fun ⟨hleft, hright, htop, hbottom⟩ => ?_
  rw [State.getD_spriteRows s (by omega), spriteBit_eq_getLsbD _ (by omega)]

/-- A draw XORs every cell with the sprite bit that falls on it (rule R251). -/
theorem State.cell_drawn (s : State) (x y : Reg) (n : Nibble) {cx cy : Nat} (hx : cx ≤ 63) (hy : cy ≤ 31) :
    (s.drawn x y n).disp.cell cx cy = (s.disp.cell cx cy ^^ s.spriteOn x y n cx cy) :=
  (blitRows_cell _ _ _ _ hx hy).trans (by rw [State.rowsBit_spriteRows])

/-- The blit's collision bit is the collision of rule R251. -/
theorem State.blit_hit (s : State) (x y : Reg) (n : Nibble) : (s.blit x y n).2 = true ↔ s.Collides x y n := by
  rw [State.blit, blitRows_hit]
  simp [State.rowsBit_spriteRows, State.Collides]

/-- VF after a draw is the flag of the collision. -/
theorem State.reg_VF_drawn (s : State) (x y : Reg) (n : Nibble) :
    (s.drawn x y n).reg VF = flagByte (s.blit x y n).2 :=
  State.reg_setReg_same _ _ _

theorem State.reg_VF_drawn_eq_one (s : State) (x y : Reg) (n : Nibble) :
    (s.drawn x y n).reg VF = 1 ↔ s.Collides x y n := by
  rw [State.reg_VF_drawn, flagByte_eq_one, State.blit_hit]

theorem State.reg_VF_drawn_eq_zero_or_one (s : State) (x y : Reg) (n : Nibble) :
    (s.drawn x y n).reg VF = 0 ∨ (s.drawn x y n).reg VF = 1 := by
  rw [State.reg_VF_drawn]
  exact flagByte_eq_zero_or_one _

/-- Settles O50: the blit is the closed form, and VF's write is the only other one. -/
theorem drawXorsTheSpriteAndReportsCollision : Obligations.DrawXorsTheSpriteAndReportsCollision := fun x y n s =>
  ⟨_, exec_drw x y n s, fun _ _ => s.cell_drawn x y n, (s.reg_VF_drawn_eq_one x y n).mpr,
    fun hno => (s.reg_VF_drawn_eq_zero_or_one x y n).resolve_right (mt (s.reg_VF_drawn_eq_one x y n).mp hno),
    fun _ hr => State.reg_setReg_ne _ _ hr, fun _ => rfl, rfl⟩

/-- After a draw that leaves the start position the same sprite falls on the same cells: I and memory are unchanged. -/
theorem State.spriteOn_drawn {s : State} {x y : Reg} {n : Nibble}
    (hcol : (s.drawn x y n).startColumn x = s.startColumn x) (hrow : (s.drawn x y n).startRow y = s.startRow y)
    (cx cy : Nat) : (s.drawn x y n).spriteOn x y n cx cy = s.spriteOn x y n cx cy := by
  rw [← State.rowsBit_spriteRows, ← State.rowsBit_spriteRows, hcol, hrow]
  rfl

/-- Where a sprite bit is drawn the first draw turned the cell, so the second meets it on when it was off before. -/
theorem State.collides_drawn {s : State} {x y : Reg} {n : Nibble}
    (hcol : (s.drawn x y n).startColumn x = s.startColumn x) (hrow : (s.drawn x y n).startRow y = s.startRow y) :
    (s.drawn x y n).Collides x y n ↔
      ∃ cx cy, cx ≤ 63 ∧ cy ≤ 31 ∧ s.spriteOn x y n cx cy = true ∧ s.disp.cell cx cy = false := by
  refine exists₂_congr fun cx cy => and_congr_right fun hx => and_congr_right fun hy => ?_
  rw [State.spriteOn_drawn hcol hrow, State.cell_drawn s x y n hx hy]
  refine and_congr_right fun hon => ?_
  rw [hon, Bool.xor_true, Bool.not_eq_true']

/-- Settles O51: the second draw XORs every cell with the same bit again, and meets the cells the first one turned on. -/
theorem drawingTwiceRestoresTheDisplay : Obligations.DrawingTwiceRestoresTheDisplay := by
  intro x y n s t u ht hcol hrow hu
  cases ht
  cases hu
  have hflag := (State.reg_VF_drawn_eq_one (s.drawn x y n) x y n).trans (State.collides_drawn hcol hrow)
  refine ⟨Display.ext_cell fun cx cy hx hy => ?restored, State.reg_VF_drawn_eq_zero_or_one _ x y n, hflag,
    fun hblank => hflag.trans ?blank⟩
  case restored =>
    calc ((s.drawn x y n).drawn x y n).disp.cell cx cy
      _ = ((s.drawn x y n).disp.cell cx cy ^^ (s.drawn x y n).spriteOn x y n cx cy) := State.cell_drawn _ x y n hx hy
      _ = (s.disp.cell cx cy ^^ s.spriteOn x y n cx cy ^^ s.spriteOn x y n cx cy) := by
        rw [State.spriteOn_drawn hcol hrow, State.cell_drawn s x y n hx hy]
      _ = s.disp.cell cx cy := by rw [Bool.xor_assoc, Bool.xor_self, Bool.xor_false]
  case blank => simp only [hblank, and_true, State.DrawsSomething]

/-- Settles O49: the display 00E0 writes is the blank one (rule R250). -/
theorem clearTurnsEveryCellOff : Obligations.ClearTurnsEveryCellOff := fun _ =>
  ⟨_, rfl, Display.cell_blank, rfl, fun _ => rfl⟩

/-- The reset state with I at the glyph of digit 0 and every cell of the display on. -/
def litReset : State :=
  { State.reset with I := zext16 defaultFontBase, disp := Vector.replicate 32 (BitVec.allOnes 64) }

theorem litReset_inv : litReset.Inv :=
  State.inv_of_running resetMeetsTheInvariant.memory resetMeetsTheInvariant.generator resetMeetsTheInvariant.font rfl

/-- Settles O52: the glyph's top row drawn twice at (0, 0) of a display that is on everywhere (log entry 16). -/
theorem secondDrawNeedNotCollide : Obligations.SecondDrawNeedNotCollide :=
  ⟨0, 0, 1, litReset, _, _, litReset_inv, exec_drw 0 0 1 _, exec_drw 0 0 1 _, by decide, by decide,
    ⟨0, 0, by decide, by decide, by decide⟩, by decide⟩

end Sys2Proof.Machine
end

section
/-! SUPPORT. The forms of the display the host reads (rule R253): what stands at each index of the flat, the colour and the
packed form, and the statement about them. -/

namespace Sys2Proof.Machine

@[simp] theorem Display.length_flat (d : Display) : d.flat.length = 2048 := by
  rw [Display.flat, List.length_map, List.length_range]

@[simp] theorem Display.length_packed (d : Display) : d.packed.length = 256 := by
  rw [Display.packed, List.length_map, List.length_range]

/-- Cell (x, y) is at index y * 64 + x of the flat form (rules R33, R253). -/
theorem Display.getElem?_flat (d : Display) {x y : Nat} (hx : x ≤ 63) (hy : y ≤ 31) :
    d.flat[y * 64 + x]? = some (d.cell x y) := by
  have hcol : (y * 64 + x) % 64 = x := by omega
  have hrow : (y * 64 + x) / 64 = y := by omega
  rw [Display.flat, List.getElem?_map, List.getElem?_range (by omega), Option.map_some, hcol, hrow]

/-- The colour of cell (x, y) is at the cell's index (rule R253). -/
theorem Display.getElem?_colours (d : Display) {x y : Nat} (hx : x ≤ 63) (hy : y ≤ 31) :
    d.colours[y * 64 + x]? = some (cellColour (d.cell x y)) := by
  rw [Display.colours, List.getElem?_map, Display.getElem?_flat d hx hy, Option.map_some]

/-- Byte k of row y is at index y * 8 + k of the packed form (rule R253). -/
theorem Display.getElem?_packed (d : Display) {y k : Nat} (hy : y ≤ 31) (hk : k < 8) :
    d.packed[y * 8 + k]? = some (d.packedByte y k) := by
  have hbyte : (y * 8 + k) % 8 = k := by omega
  have hrow : (y * 8 + k) / 8 = y := by omega
  rw [Display.packed, List.getElem?_map, List.getElem?_range (by omega), Option.map_some, hbyte, hrow]

/-- Cell x of a row is bit 7 - (x mod 8) of byte x / 8 (rule R253). -/
theorem Display.getLsbD_packedByte (d : Display) {x : Nat} (hx : x ≤ 63) (y : Nat) :
    (d.packedByte y (x / 8)).getLsbD (7 - x % 8) = d.cell x y := by
  have hbit : 56 - 8 * (x / 8) + (7 - x % 8) = 64 - 1 - x := by omega
  rw [Display.packedByte, Display.cell, BitVec.getLsbD_extractLsb', BitVec.getMsbD_eq_getLsbD, hbit,
    decide_eq_true (show 7 - x % 8 < 8 by omega), decide_eq_true (show x < 64 by omega)]

/-- Settles O53: each form is read at its index, and a read is the identity on a session past `init` (rules R253, R297). -/
theorem displayExportLayout : Obligations.DisplayExportLayout := fun s _ _ hx hy =>
  ⟨s.disp.length_flat, s.disp.getElem?_flat hx hy, s.disp.getElem?_colours hx hy, s.disp.length_packed,
    by rw [Display.getElem?_packed _ hy (by omega), Option.map_some, Display.getLsbD_packedByte _ hx],
    rfl, rfl, fun _ hph => if_neg hph⟩

end Sys2Proof.Machine
end

section
/-! SUPPORT. The exceptions' statements (rules R286, R288, R296): what a step that errs leaves, and that a halted session has
no successor. -/

namespace Sys2Proof.Machine

/-- A step that ends halted raised an error on the state after fetch and advance, and did nothing else (rule R288). -/
theorem eq_fetched_raise_of_step_halted {s t : State} {e : ErrorRecord} (h : step s = .next t) (ht : t.status = .halted e) :
    ∃ k info, t = s.fetched.raise k info := by
  obtain ⟨hr, ⟨_, -, rfl⟩ | ⟨i, hd, hx⟩⟩ := step_cases h
  · exact ⟨_, _, rfl⟩
  · by_cases hc : s.fetched.ErrorCondition i
    · obtain ⟨k, info, hraise, -⟩ := exec_raises_expectedError hd hc
      exact ⟨k, info, Host.Outcome.next.inj (hx.symm.trans hraise)⟩
    · have hkept : t.status = .running := (exec_status hx hc).trans hr
      cases ht.symm.trans hkept

/-- Settles O18: the step raised an error, whose record `State.fetched_raise` spells out. -/
theorem errorsArePrecise : Obligations.ErrorsArePrecise := by
  intro s t e _ h ht
  obtain ⟨k, info, rfl⟩ := eq_fetched_raise_of_step_halted h ht
  rw [State.fetched_raise] at ht ⊢
  cases ht
  exact ⟨rfl, rfl, rfl⟩

/-- Settles O16: all three read the status first (rule R286). -/
theorem haltedSessionHasNoSuccessor : Obligations.HaltedSessionHasNoSuccessor := fun _ _ k h =>
  ⟨step_of_halted h, tick_of_halted h, setKeypad_of_halted k h⟩

/-- Settles O47: a keypad write of a running state replaces the key array (rule R296). -/
theorem keypadWriteReplacesAllKeys : Obligations.KeypadWriteReplacesAllKeys := fun k _ h =>
  ⟨_, setKeypad_of_running k h, fun _ => rfl, rfl⟩

end Sys2Proof.Machine
end

section
/-! SUPPORT. The phases of a session (rule R297): when each host operation is enabled, the phase it leaves, and the order in
which a session's operations can stand. -/

namespace Sys2Proof.Machine

/-- The phases each operation is allowed in and leaves (rules R297, R323, decision D28). -/
inductive PhaseMove : HostOp → Phase → Phase → Prop
  | init (p : InitParams) : PhaseMove (.init p) .created .initialised
  | loadFits (bytes : List Byte) : PhaseMove (.load bytes) .initialised .loaded
  | loadRefused {bytes : List Byte} (h : bytes.length > 3584) : PhaseMove (.load bytes) .initialised .initialised
  | step {ph : Phase} (h : ph ≠ .created) : PhaseMove .step ph .executing
  | tick {ph : Phase} (h : ph ≠ .created) : PhaseMove .tick ph ph
  | setKeypad {ph : Phase} (k : Vector Bool 16) (h : ph ≠ .created) : PhaseMove (.setKeypad k) ph ph
  | readDisplay {ph : Phase} (h : ph ≠ .created) : PhaseMove .readDisplay ph ph
  | readStatus {ph : Phase} (h : ph ≠ .created) : PhaseMove .readStatus ph ph

/-- The phases in the order a session goes through them. -/
def Phase.rank : Phase → Nat
  | .created => 0
  | .initialised => 1
  | .loaded => 2
  | .executing => 3

theorem Phase.rank_pos {ph : Phase} : 0 < ph.rank ↔ ph ≠ .created := by
  cases ph <;> simp [Phase.rank]

/-- An operation that is enabled moves the phase as its row of rule R297's table says. -/
theorem phaseMove_of_run {op : HostOp} {s u : Session} {r : HostResult} (h : Session.run op s = some (u, r)) :
    PhaseMove op s.phase u.phase := by
  have hmove := hostMove_of_run h
  cases op <;> simp only [Session.run, Option.ite_none_left_eq_some, Option.ite_none_right_eq_some] at h <;>
    obtain ⟨hph, -⟩ := h
  case init p =>
    obtain ⟨rfl, -⟩ := hmove
    exact hph ▸ .init p
  case load bytes =>
    obtain ⟨-, -, t, -, rfl⟩ | ⟨hl, rfl, -⟩ := hmove
    · exact hph ▸ .loadFits bytes
    · exact hph ▸ .loadRefused hl
  case step =>
    obtain ⟨t, -, rfl, -⟩ := hmove
    exact .step hph
  case tick =>
    obtain ⟨t, -, rfl, -⟩ := hmove
    exact .tick hph
  case setKeypad k =>
    obtain ⟨t, -, rfl, -⟩ := hmove
    exact .setKeypad k hph
  case readDisplay =>
    obtain ⟨rfl, -⟩ := hmove
    exact .readDisplay hph
  case readStatus =>
    obtain ⟨rfl, -⟩ := hmove
    exact .readStatus hph

/-- Nothing leads back to before `init`. -/
theorem PhaseMove.ne_created {op : HostOp} {a b : Phase} (h : PhaseMove op a b) : b ≠ .created := by
  cases h with
  | tick hb | setKeypad k hb | readDisplay hb | readStatus hb => exact hb
  | init | loadFits | loadRefused | step => simp

/-- No operation goes back to an earlier phase. -/
theorem PhaseMove.rank_le {op : HostOp} {a b : Phase} (h : PhaseMove op a b) : a.rank ≤ b.rank := by
  cases h with
  | step => cases a <;> simp [Phase.rank]
  | init | loadFits => simp [Phase.rank]
  | loadRefused | tick | setKeypad | readDisplay | readStatus => exact Nat.le_refl _

/-- A step answers a next state exactly in a running state (rules R106, R286). -/
theorem exists_step_eq_next {s : State} : (∃ t, step s = .next t) ↔ s.status = .running := by
  refine ⟨fun ⟨_, h⟩ => (step_cases h).1, fun h => ?_⟩
  obtain ⟨t, ht, -⟩ := runningStepAnswersWithTheTablesError s h
  exact ⟨t, ht⟩

theorem Session.isSome_runStep {s : Session} : s.runStep.isSome = true ↔ s.machine.status = .running := by
  simp [Option.isSome_iff_exists, Session.runStep_eq_some, exists_step_eq_next]

theorem Session.isSome_runQuiet {s : Session} {o : Host.Outcome State Fault Refusal} :
    (s.runQuiet o).isSome = true ↔ ∃ t, o = .next t := by
  simp [Option.isSome_iff_exists, Session.runQuiet_eq_some]

/-- What a phase test before an answer asks for. -/
theorem isSome_ite_none {α : Type} {p : Prop} [Decidable p] {o : Option α} :
    (if p then none else o).isSome = true ↔ ¬p ∧ o.isSome = true := by
  split <;> simp [*]

/-- Settles O54: the moves and phases are those of an enabled operation; the enabling conditions are the phase tests of
`Session.run`, and of a step, a tick and a keypad write that the machine is running. -/
theorem hostOperationsAreEnabledByTheTable : Obligations.HostOperationsAreEnabledByTheTable := by
  refine ⟨fun op s u r h => ⟨hostMove_of_run h, (phaseMove_of_run h).ne_created⟩, fun s p bytes k => ?_⟩
  refine ⟨Option.isSome_ite, Option.isSome_ite, isSome_ite_none.trans (and_congr_right' Session.isSome_runStep),
    isSome_ite_none.trans (and_congr_right' ?_), isSome_ite_none.trans (and_congr_right' ?_), ?_, ?_⟩
  · simp [Session.isSome_runQuiet, tick_eq_next]
  · simp [Session.isSome_runQuiet, setKeypad_eq_next]
  · exact isSome_ite_none.trans (and_iff_left rfl)
  · exact isSome_ite_none.trans (and_iff_left rfl)

/-- Every operation of a session is enabled in its turn, in a phase no earlier than the session's first. -/
theorem Session.phaseMove_of_mem {ops : List HostOp} {s v : Session} (h : Session.runAll ops s = some v) {op : HostOp}
    (hop : op ∈ ops) : ∃ a b, PhaseMove op a b ∧ s.phase.rank ≤ a.rank := by
  induction ops generalizing s with
  | nil => cases hop
  | cons first ops ih =>
    obtain ⟨u, r, hfirst, hrest⟩ := Session.runAll_cons.mp h
    obtain rfl | hop := List.mem_cons.mp hop
    · exact ⟨_, _, phaseMove_of_run hfirst, Nat.le_refl _⟩
    · obtain ⟨a, b, hmove, hrank⟩ := ih hrest hop
      exact ⟨a, b, hmove, (phaseMove_of_run hfirst).rank_le.trans hrank⟩

/-- A later operation finds a phase no earlier than the one the operation before it left. -/
def MayPrecede (op later : HostOp) : Prop :=
  ∃ a b c d, PhaseMove op a b ∧ PhaseMove later c d ∧ b.rank ≤ c.rank

/-- Of any two operations of a session the first may precede the second. -/
theorem Session.pairwise_mayPrecede {ops : List HostOp} {s v : Session} (h : Session.runAll ops s = some v) :
    ops.Pairwise MayPrecede := by
  induction ops generalizing s with
  | nil => exact .nil
  | cons op ops ih =>
    obtain ⟨u, r, hop, hrest⟩ := Session.runAll_cons.mp h
    refine .cons (fun later hlater => ?_) (ih hrest)
    obtain ⟨c, d, hmove, hrank⟩ := Session.phaseMove_of_mem hrest hlater
    exact ⟨_, _, c, d, phaseMove_of_run hop, hmove, hrank⟩

theorem Session.mayPrecede_of_getElem? {ops : List HostOp} {s v : Session} (h : Session.runAll ops s = some v) {i j : Nat}
    (hij : i < j) {op later : HostOp} (hi : ops[i]? = some op) (hj : ops[j]? = some later) : MayPrecede op later := by
  obtain ⟨hlt, rfl⟩ := List.getElem?_eq_some_iff.mp hi
  obtain ⟨hlt', rfl⟩ := List.getElem?_eq_some_iff.mp hj
  exact List.pairwise_iff_getElem.mp (Session.pairwise_mayPrecede h) i j hlt hlt' hij

/-- Every operation leaves a phase after the one that `init` is allowed in. -/
theorem not_mayPrecede_init (op : HostOp) (p : InitParams) : ¬MayPrecede op (.init p) := by
  rintro ⟨a, b, c, d, hop, ⟨⟩, hrank⟩
  exact Nat.not_lt.mpr hrank (Phase.rank_pos.mpr hop.ne_created)

/-- A step leaves a phase after the one that `load` is allowed in. -/
theorem not_mayPrecede_step_load (bytes : List Byte) : ¬MayPrecede .step (.load bytes) := by
  rintro ⟨a, b, c, d, ⟨⟩, hload, hrank⟩
  cases hload <;> simp [Phase.rank] at hrank

/-- A load that another may follow was refused: one that fits leaves a phase after the one that `load` is allowed in. -/
theorem length_of_mayPrecede_load {bytes later : List Byte} (h : MayPrecede (.load bytes) (.load later)) :
    bytes.length > 3584 := by
  obtain ⟨a, b, c, d, hload, hlater, hrank⟩ := h
  cases hload with
  | loadRefused hl => exact hl
  | loadFits => cases hlater <;> simp [Phase.rank] at hrank

/-- Before `init` only `init` is allowed (log entry 17). -/
theorem PhaseMove.eq_init {op : HostOp} {b : Phase} (h : PhaseMove op .created b) : ∃ p, op = .init p := by
  cases h with
  | init p => exact ⟨p, rfl⟩
  | step h | tick h | setKeypad _ h | readDisplay h | readStatus h => exact absurd rfl h

/-- Settles O56: the first operation is enabled before `init`, and each other clause is about a pair of operations of which
the first may precede the second. -/
theorem sessionsInitOnceAndLoadBeforeStepping : Obligations.SessionsInitOnceAndLoadBeforeStepping := by
  intro ops m v h
  refine ⟨fun hne => ?initFirst, fun i p hi => ?initOnce, fun i j bytes hi hj => ?loadBeforeStep,
    fun i j bytes later hij hi hj => length_of_mayPrecede_load (Session.mayPrecede_of_getElem? h hij hi hj)⟩
  case initFirst =>
    obtain ⟨op, rest, rfl⟩ := List.exists_cons_of_ne_nil hne
    obtain ⟨u, r, hop, -⟩ := Session.runAll_cons.mp h
    obtain ⟨p, rfl⟩ := (phaseMove_of_run hop).eq_init
    exact ⟨p, rfl⟩
  case initOnce =>
    by_contra hne
    obtain ⟨hlt, -⟩ := List.getElem?_eq_some_iff.mp hi
    have hfirst : ops[0]? = some ops[0] := List.getElem?_eq_getElem (by omega)
    exact not_mayPrecede_init _ p (Session.mayPrecede_of_getElem? h (Nat.pos_of_ne_zero hne) hfirst hi)
  case loadBeforeStep =>
    obtain hij | rfl | hij := Nat.lt_trichotomy j i
    · exact hij
    · cases hi.symm.trans hj
    · exact absurd (Session.mayPrecede_of_getElem? h hij hi hj) (not_mayPrecede_step_load bytes)

end Sys2Proof.Machine
end

section
/-! SUPPORT. A cold start (rules R320, R323): the bytes a load writes and the bytes it leaves, and the statements about `init`
and `load`. -/

namespace Sys2Proof.Machine

/-- Settles O1: the registers are `init`'s own values, and the font is the one block stored in an empty memory (rules R38, R320). -/
theorem initGivesTheResetValues : Obligations.InitGivesTheResetValues := fun p hp =>
  ⟨Vector.get_replicate 16 0, rfl, rfl, rfl, rfl, rfl, Vector.get_replicate 16 0, Display.cell_blank,
    Vector.get_replicate 16 false, rfl, rfl, rfl, rfl, State.memRead_init_font p, fun _ => State.memRead_init_outside hp⟩

/-- A block that ends inside the 4096 bytes does not wrap, so the bytes before and after it stay (rule R51). -/
theorem State.memRead_memWriteBlock_outside {s : State} (hm : s.mem.wf = true) {a k : Nat} {bs : List Byte}
    (hend : a + bs.length ≤ 4096) (hk : k < 4096) (ho : k < a ∨ a + bs.length ≤ k) :
    (s.memWriteBlock a bs).memRead k = s.memRead k := by
  have hmiss : ∀ i < bs.length, maskAddr k ≠ maskAddr (a + i) := by
    intro i hi
    rw [maskAddr_of_lt hk, maskAddr_of_lt (by omega)]
    omega
  exact Memory.read_writeBlock_other hm hmiss

/-- A load from the phase after `init` is enabled (rule R297). -/
theorem Session.run_load_of_initialised {s : Session} (h : s.phase = .initialised) (bytes : List Byte) :
    Session.run (.load bytes) s = some (s.runLoad bytes) :=
  if_pos h

/-- Settles O48: a ROM that fits is one block that ends inside memory; one that does not fit is refused before any write (rule
R323). -/
theorem romLoadCopiesOrRefuses : Obligations.RomLoadCopiesOrRefuses := by
  refine fun bytes s hm => ⟨fun hfits => ?fits, fun htoo => ?tooLarge⟩
  case fits =>
    have hend : 0x200 + bytes.length ≤ 4096 := by omega
    exact ⟨_, loadRom_of_le hfits s, rfl, fun i => Memory.read_writeBlock_at hm i.isLt (by omega),
      fun _ ha ho => State.memRead_memWriteBlock_outside hm hend ha ho⟩
  case tooLarge =>
    refine ⟨loadRom_of_gt htoo s, ?_⟩
    rw [Session.run_load_of_initialised rfl, Session.runLoad_of_gt htoo]
    rfl

end Sys2Proof.Machine
end
